-- ==== Sys2Proof/Word.lean ====
section
/-! DEFINITION. The word types of the machine (spec/00_scope.md section 5, R3). The widths stand as literals here and nowhere
else; Config names each of them under R3's name, and Laws/Config.lean proves that each type has the width so named. -/

namespace Sys2Proof

/-- A memory cell, an opcode or an operand: 8 bits (R3 BYTE_BITS); and what a register holds (R3 XLEN, R11). -/
abbrev Byte := BitVec 8

/-- The address a data access forms, a register or the stack pointer: 8 bits (R3 ADDR_BITS, R10). -/
abbrev DataAddr := BitVec 8

/-- A program counter or a checked memory address: 9 bits (R3 PC_BITS, R15, R31). UNVERIFIED: the spec's
decision D5; safe, log 2. -/
abbrev Addr := BitVec 9

/-- The flags register: 8 bits (R3 FL_BITS, R16). UNVERIFIED: the spec's decision D6; unsafe for claims about bits 7 to 3,
log 16. -/
abbrev FlagBits := BitVec 8

/-- A register index that exists, 0 to 7 (R3 NREGS, R11). -/
abbrev RegIndex := Fin 8

end Sys2Proof
end

