-- ==== Sys2Proof/Config.lean ====
section
/-! DEFINITION. The parameters of the hardware (spec/00_scope.md R3) and the dispatcher's opcode map
(spec/30_encoding.md R56, R57). Nothing here is a free value: the spec leaves no value open. -/

namespace Sys2Proof

/-- The 15 mnemonics, in the order of the table of R56. -/
inductive Mnemonic where
  | ldi | prn | hlt | add | dec | mul | push | pop | call | ret | st | cmp | jmp | jeq | jne
deriving DecidableEq, Repr

namespace Config

/-- MEM_SIZE, in bytes (R3, R10). -/
def memSize : Nat := 256

/-- BYTE_BITS, the width of `Byte` (R3, R10). -/
def byteBits : Nat := 8

/-- ADDR_BITS, the data address width, that of `DataAddr` (R3, R10). -/
def addrBits : Nat := 8

/-- XLEN, the width of a register (R3, R11). -/
def xlen : Nat := 8

/-- PC_BITS, the width of `Addr` (R3, R15). UNVERIFIED: the spec's decision D5; safe, log 2. -/
def pcBits : Nat := 9

/-- FL_BITS, the width of `FlagBits` (R3, R16). UNVERIFIED: the spec's decision D6; unsafe for claims about bits 7 to 3,
log 16. -/
def flBits : Nat := 8

/-- NREGS, the number of registers (R3, R11). -/
abbrev nregs : Nat := 8

/-- SP_INDEX: the register the stack pointer logic acts on (R3, R13). -/
def spIndex : RegIndex := 7

/-- SP_RESET (R3, R23). -/
def spReset : Byte := 0xF4

/-- PC_RESET (R3, R23, R201). -/
def pcReset : Addr := 0

/-- RESET_GPR: registers 0 to 6 at reset (R3, R23). UNVERIFIED: the spec's decision D3; unsafe, log 3. -/
def resetGpr : Byte := 0x00

/-- RESET_FL: the flags at reset (R3, R23). UNVERIFIED: the spec's decision D4; unsafe, log 3. -/
def resetFl : FlagBits := 0x00

/-- FL_L_BIT: Less (R3, R16). -/
def flLBit : Nat := 2

/-- FL_G_BIT: Greater (R3, R16). -/
def flGBit : Nat := 1

/-- FL_E_BIT: Equal (R3, R16). -/
def flEBit : Nat := 0

/-- OPCODE_MAP at its default, the column "opcode" of R56. UNVERIFIED: the spec takes the bytes from general
knowledge (its decision D1); unsafe for claims about bytes, log 1. -/
def opcodeMap : Mnemonic → Byte
  | .ldi  => 0x82
  | .prn  => 0x47
  | .hlt  => 0x01
  | .add  => 0xA0
  | .dec  => 0x66
  | .mul  => 0xA2
  | .push => 0x45
  | .pop  => 0x46
  | .call => 0x50
  | .ret  => 0x11
  | .st   => 0x84
  | .cmp  => 0xA7
  | .jmp  => 0x54
  | .jeq  => 0x55
  | .jne  => 0x56

/-- The named alternative OPC_DEC_ALT: DEC at 0xA1, every other byte as in the default map (R57). -/
def opcodeMapDecAlt : Mnemonic → Byte
  | .dec => 0xA1
  | m    => opcodeMap m

end Config
end Sys2Proof
end

