-- ==== Sys2Proof/Syntax.lean ====
section
/-! DEFINITION. The instructions as data: one constructor per row of spec/opcode_table.json (spec/30_encoding.md R56). -/

namespace Sys2Proof

/-- One instruction. `o1` and `o2` are the operand bytes at pc+1 and pc+2 as fetched (R50, R54): a register operand is
not yet checked, since the check is phase 4 of the step and its failure is a fault of the machine (R75).
DESIGN CHOICE: the raw bytes are kept; safe, log 22. -/
inductive Instr where
  /-- LDI reg, immediate (R90). -/
  | ldi (o1 o2 : Byte)
  /-- PRN reg (R141). -/
  | prn (o1 : Byte)
  /-- HLT (R140). -/
  | hlt
  /-- ADD regA, regB (R100). -/
  | add (o1 o2 : Byte)
  /-- DEC regA, regB (R101). -/
  | dec (o1 o2 : Byte)
  /-- MUL regA, regB (R102). -/
  | mul (o1 o2 : Byte)
  /-- PUSH reg (R116). -/
  | push (o1 : Byte)
  /-- POP reg (R117). -/
  | pop (o1 : Byte)
  /-- CALL reg (R125). -/
  | call (o1 : Byte)
  /-- RET (R126). -/
  | ret
  /-- ST regA, regB (R91). -/
  | st (o1 o2 : Byte)
  /-- CMP regA, regB (R110). -/
  | cmp (o1 o2 : Byte)
  /-- JMP reg (R127). -/
  | jmp (o1 : Byte)
  /-- JEQ reg (R128). -/
  | jeq (o1 : Byte)
  /-- JNE reg (R129). -/
  | jne (o1 : Byte)
deriving DecidableEq, Repr

end Sys2Proof
end

