-- ==== Sys2Proof/Decode.lean ====
section
/-! DEFINITION. The instruction dispatcher, the decoder and the encoder (spec/30_encoding.md R50 to R61;
spec/40_execution_loop.md R72 to R74; spec/47_blocks_and_interfaces.md R157). Everything takes OPCODE_MAP as an argument,
since R57 makes it a parameter; the names without "With" use its default. -/

namespace Sys2Proof

/-- The four formats (R50): no operand; one register; two registers; a register and an immediate. -/
inductive Format where
  | f0 | f1 | f2r | f2i
deriving DecidableEq, Repr

/-- The column "format" of R56. -/
def formatOf : Mnemonic → Format
  | .ldi => .f2i
  | .prn | .push | .pop | .call | .jmp | .jeq | .jne => .f1
  | .hlt | .ret => .f0
  | .add | .dec | .mul | .st | .cmp => .f2r

/-- The number of operand bytes, `d.nops` (R73). -/
def nopsOf (m : Mnemonic) : Nat :=
  match formatOf m with
  | .f0 => 0
  | .f1 => 1
  | .f2r | .f2i => 2

/-- LEN: the opcode byte and the operand bytes (R50, R51). -/
def lengthOf (m : Mnemonic) : Nat := 1 + nopsOf m

/-- The 15 mnemonics, in the order of R56. -/
def allMnemonics : List Mnemonic :=
  [.ldi, .prn, .hlt, .add, .dec, .mul, .push, .pop, .call, .ret, .st, .cmp, .jmp, .jeq, .jne]

/-- `Dispatch(op)`: the instruction whose opcode byte is `op`, or none for an invalid opcode (R56, R58, R73). -/
def dispatchWith (map : Mnemonic → Byte) (op : Byte) : Option Mnemonic :=
  allMnemonics.find? fun m => map m == op

/-- `Dispatch(op)` under the default map. -/
def dispatch (op : Byte) : Option Mnemonic := dispatchWith Config.opcodeMap op

/-- The instruction of a mnemonic and its operand bytes; a byte the format does not have is not used (R50). -/
def assemble (m : Mnemonic) (o1 o2 : Byte) : Instr :=
  match m with
  | .ldi  => .ldi o1 o2
  | .prn  => .prn o1
  | .hlt  => .hlt
  | .add  => .add o1 o2
  | .dec  => .dec o1 o2
  | .mul  => .mul o1 o2
  | .push => .push o1
  | .pop  => .pop o1
  | .call => .call o1
  | .ret  => .ret
  | .st   => .st o1 o2
  | .cmp  => .cmp o1 o2
  | .jmp  => .jmp o1
  | .jeq  => .jeq o1
  | .jne  => .jne o1

/-- Phases 1 to 3 of the step (R72 to R74) over any way of reading the byte `k` places after the first: the opcode, its
dispatch, then exactly the operand bytes the instruction has, in increasing order. The decoder reads a list of bytes
with it, and the step reads memory with it. -/
def readInstr {ε : Type} (map : Mnemonic → Byte) (invalid : Byte → ε) (read : Nat → Except ε Byte) : Except ε Instr :=
  match read 0 with
  | .error e => .error e
  | .ok op =>
    match dispatchWith map op with
    | none => .error (invalid op)
    | some m =>
      match nopsOf m with
      | 0 => .ok (assemble m 0 0)
      | 1 =>
        match read 1 with
        | .error e => .error e
        | .ok o1 => .ok (assemble m o1 0)
      | _ =>
        match read 1 with
        | .error e => .error e
        | .ok o1 =>
          match read 2 with
          | .error e => .error e
          | .ok o2 => .ok (assemble m o1 o2)

/-- Why a list of bytes is not an instruction. -/
inductive DecodeError where
  /-- The first byte is none of the 15 opcodes (R58). -/
  | invalidOpcode (op : Byte)
  /-- The list ends before the byte at this place of the instruction (R61, R74). -/
  | missingByte (index : Nat)
deriving DecidableEq, Repr

/-- The byte at a place of a list, or the report that it is missing. -/
def readListByte (bs : List Byte) (k : Nat) : Except DecodeError Byte :=
  match bs[k]? with
  | some b => .ok b
  | none => .error (.missingByte k)

/-- The mnemonic of an instruction. -/
def Instr.mnemonic : Instr → Mnemonic
  | .ldi _ _ => .ldi
  | .prn _   => .prn
  | .hlt     => .hlt
  | .add _ _ => .add
  | .dec _ _ => .dec
  | .mul _ _ => .mul
  | .push _  => .push
  | .pop _   => .pop
  | .call _  => .call
  | .ret     => .ret
  | .st _ _  => .st
  | .cmp _ _ => .cmp
  | .jmp _   => .jmp
  | .jeq _   => .jeq
  | .jne _   => .jne

/-- The length of an instruction in bytes (R50). -/
def Instr.length (i : Instr) : Nat := lengthOf i.mnemonic

/-- The decoder: the instruction at the front of a list of bytes, and the bytes after it. -/
def decodeWith (map : Mnemonic → Byte) (bs : List Byte) : Except DecodeError (Instr × List Byte) :=
  match readInstr map .invalidOpcode (readListByte bs) with
  | .error e => .error e
  | .ok i => .ok (i, bs.drop i.length)

/-- The decoder under the default map. -/
def decode (bs : List Byte) : Except DecodeError (Instr × List Byte) := decodeWith Config.opcodeMap bs

/-- The operand bytes of an instruction, in memory order (R54). UNVERIFIED: the spec's decision D2; unsafe for claims about
bytes, log 4. -/
def Instr.operandBytes : Instr → List Byte
  | .ldi o1 o2 => [o1, o2]
  | .prn o1    => [o1]
  | .hlt       => []
  | .add o1 o2 => [o1, o2]
  | .dec o1 o2 => [o1, o2]
  | .mul o1 o2 => [o1, o2]
  | .push o1   => [o1]
  | .pop o1    => [o1]
  | .call o1   => [o1]
  | .ret       => []
  | .st o1 o2  => [o1, o2]
  | .cmp o1 o2 => [o1, o2]
  | .jmp o1    => [o1]
  | .jeq o1    => [o1]
  | .jne o1    => [o1]

/-- The encoder: the opcode byte, then the operand bytes (R50, R56). -/
def encodeWith (map : Mnemonic → Byte) (i : Instr) : List Byte := map i.mnemonic :: i.operandBytes

/-- The encoder under the default map. -/
def encode (i : Instr) : List Byte := encodeWith Config.opcodeMap i

/-- The bytes of a word of spec/opcode_table.json, lowest address first. The table numbers an instruction's bits with the
byte at pc as the MOST significant byte of its `nbits` ("encoding_convention"; "fixed" puts LDI's opcode in bits 23 to
16). DEDUCED, safe, log 10. Zero bytes follow, up to the longest instruction. -/
def tableBytes (nbits w : Nat) : List Byte :=
  let n := (nbits + 7) / 8
  (List.range n).map (fun k => BitVec.ofNat _ (w / 2 ^ (8 * (n - 1 - k)))) ++ List.replicate (3 - n) 0

/-- The instruction the decoder reads from a word of the opcode table (`none` where it refuses). -/
def decodeTableWord (nbits w : Nat) : Option Instr :=
  match decode (tableBytes nbits w) with
  | .ok (i, _) => some i
  | .error _ => none

end Sys2Proof
end

