-- ==== Sys2Proof/Machine/State.lean ====
section
/-! DEFINITION. The whole state of the machine as plain data (spec/10_state.md R10 to R23), the reasons a step of the model
can stop, and the state after reset (spec/70_reset_and_hazards.md R200). -/

namespace Sys2Proof.Machine

/-- Memory as the list of its cells that do not read as zero, addresses strictly rising: every byte is zero at reset
(R10, R23), so an unlisted address reads 0x00. DEDUCED, safe, log 8. -/
abbrev Memory := List Host.Cell

/-- STATUS (R18). UNVERIFIED: the four values are the spec's decision D15; unsafe, log 5. -/
inductive Status where
  | idle | running | halted | faulted
deriving DecidableEq, Repr

/-- The tag of `AddressOutOfRange` (R19, R171). UNVERIFIED: the spec's decision D9; unsafe, log 6. -/
inductive Space where
  | mem | reg
deriving DecidableEq, Repr

/-- The ALU's operation selector (R103, R153). `unsupported` is every selector outside the three; it is the value 3 of the
2-bit realisation R153 names. DESIGN CHOICE after the spec's decision D19; safe, log 9. -/
inductive AluOp where
  | add | sub | mul | unsupported
deriving DecidableEq, Repr

/-- The record of a fault: what ERR holds when it is not None (R19, R171). -/
inductive ErrRecord where
  /-- The byte fetched at `addr` is none of the 15 opcodes (R172). -/
  | invalidOpcode (addr : Addr) (opcode : Byte)
  /-- A memory address above 255 or a register index above 7 (R173). -/
  | addressOutOfRange (space : Space) (value : Addr)
  /-- The ALU was asked for an operation outside ADD, SUB, MUL (R174); no program reaches it. -/
  | unsupportedAluOperation (op : AluOp)
  /-- PUSH or CALL with the stack pointer at 0 (R175). -/
  | stackOverflow
  /-- POP or RET where the incremented stack pointer would be 256 (R176). -/
  | stackUnderflow
deriving DecidableEq, Repr

/-- The state: the seven items of spec/10_state.md, and nothing else (R21): no interrupt
fields, UNVERIFIED, the spec's decision D7, log 17. -/
structure State where
  /-- `x[0]` to `x[7]` (R11); `x[7]` is the stack pointer (R13). -/
  x : Vector Byte Config.nregs
  /-- The program counter (R14, R15). -/
  pc : Addr
  /-- The flags register (R16). UNVERIFIED: 8 bits is the spec's decision D6; log 16. -/
  fl : FlagBits
  /-- MEM (R10). -/
  mem : Memory
  /-- STATUS (R18). -/
  status : Status
  /-- ERR: `none` is the spec's None (R19). -/
  err : Option ErrRecord
  /-- OUT, oldest first (R20). UNVERIFIED: bytes, and not their text, are the spec's decision D16; log 21. -/
  out : List Byte
deriving DecidableEq, Repr

/-- The reasons the model stops on a fault of its own: there are none. Every error of this hardware is a transition that
the spec describes in full (R78, R178), so it is a next state, and no step raises a `Fault`. DEDUCED, safe: nothing is hidden, log 19. -/
inductive Fault where
deriving DecidableEq, Repr

/-- The reasons the model gives an instruction no meaning. -/
inductive Refusal where
  /-- An instruction without a meaning yet, raised by an arm of `exec` only; safe. No arm raises it now. -/
  | notModelled (mnemonic : String)
deriving DecidableEq, Repr

/-- What a meaning answers. -/
abbrev Result := Host.Outcome State Fault Refusal

/-- Reset with RESET_GPR and RESET_FL as arguments, as R23 allows (R200). -/
def State.resetWith (gpr : Byte) (fl : FlagBits) : State where
  x := (Vector.replicate Config.nregs gpr).set Config.spIndex.val Config.spReset Config.spIndex.isLt
  pc := Config.pcReset
  fl := fl
  mem := []
  status := .idle
  err := none
  out := []

/-- The state right after reset (R23, R200). -/
def State.reset : State := State.resetWith Config.resetGpr Config.resetFl

end Sys2Proof.Machine
end

