-- ==== Sys2Proof/Machine/Ops.lean ====
section
/-! DEFINITION. The named operations over memory, registers, the program counter and the output, and the taking of a fault
(spec/20_memory.md R30 to R32; spec/10_state.md R11 to R15, R20; spec/40_execution_loop.md R78). -/

namespace Sys2Proof.Machine

/-- The byte at an address; an unlisted address reads zero (R10, R23). -/
def Memory.get : Memory → Nat → Byte
  | [], _ => 0
  | c :: m, a => if c.1 = a then c.2 else Memory.get m a

/-- The memory without any cell at an address. -/
def Memory.erase (m : Memory) (a : Nat) : Memory := m.filter fun c => c.1 != a

/-- The memory with a cell put before the first cell of a higher address. -/
def Memory.insert : Memory → Nat → Byte → Memory
  | [], a, v => [(a, v)]
  | c :: m, a, v => if a < c.1 then (a, v) :: c :: m else c :: Memory.insert m a v

/-- The memory with one byte replaced; a zero byte is not listed, which keeps the form canonical. -/
def Memory.set (m : Memory) (a : Nat) (v : Byte) : Memory :=
  if v = 0 then m.erase a else (m.erase a).insert a v

/-- The canonical form: addresses strictly rising, below MEM_SIZE, and no listed byte zero. -/
abbrev Memory.wf (m : Memory) : Prop :=
  m.Pairwise (fun c d => c.1 < d.1) ∧ ∀ c ∈ m, c.1 < Config.memSize ∧ c.2 ≠ 0

/-- `zext_9(v)` for a byte (spec/00_scope.md section 5). -/
def zext9 (v : Byte) : Addr := v.setWidth _

/-- A data address, as the checked address a memory access takes (R10, R32). -/
abbrev dataAddr (a : DataAddr) : Addr := zext9 a

/-- `trunc8(n)` for any integer (spec/00_scope.md section 5). -/
def trunc8 (n : Int) : Byte := BitVec.ofInt _ n

/-- `MEM[a]`, for statements. -/
def State.memByte (s : State) (a : Nat) : Byte := s.mem.get a

/-- `MemRead(addr, 1)` (R31). -/
def memRead (s : State) (addr : Addr) : Except ErrRecord Byte :=
  if Config.memSize ≤ addr.toNat then .error (.addressOutOfRange .mem addr) else .ok (s.mem.get addr.toNat)

/-- `MemWrite(addr, 1, v)` (R32). -/
def memWrite (s : State) (addr : Addr) (v : Byte) : Except ErrRecord State :=
  if Config.memSize ≤ addr.toNat then .error (.addressOutOfRange .mem addr)
  else .ok { s with mem := s.mem.set addr.toNat v }

/-- `x[r]` (R11, R152). -/
def State.getReg (s : State) (r : RegIndex) : Byte := s.x[r.val]

/-- `x[r] <- v` (R11, R152). -/
def State.setReg (s : State) (r : RegIndex) (v : Byte) : State := { s with x := s.x.set r.val v r.isLt }

/-- `sp`, another spelling of `x[7]` (R13). -/
def State.sp (s : State) : Byte := s.getReg Config.spIndex

/-- `x[7] <- v` by the stack-pointer logic (R115, R152). -/
def State.setSp (s : State) (v : Byte) : State := s.setReg Config.spIndex v

/-- `pc <- pc + n` (R14, R156). -/
def State.advancePc (s : State) (n : Nat) : State := { s with pc := s.pc + BitVec.ofNat _ n }

/-- `pc <- zext_9(v)` (R14, R131, R156). -/
def State.loadPc (s : State) (v : Byte) : State := { s with pc := zext9 v }

/-- `fl <- v` (R16, R154). -/
def State.setFl (s : State) (v : FlagBits) : State := { s with fl := v }

/-- `STATUS <- v` (R18). -/
def State.setStatus (s : State) (v : Status) : State := { s with status := v }

/-- `Emit(v)`: `OUT <- OUT ++ [v]` (R20, R143). -/
def State.emit (s : State) (v : Byte) : State := { s with out := s.out ++ [v] }

/-- The state after `raise e` in a step that began in `s`: STATUS and ERR, and nothing else (R78, R178).
UNVERIFIED: no partial effects, the spec's decision D11; unsafe for claims about the state after a fault, log 15. -/
def State.raised (s : State) (e : ErrRecord) : State := { s with status := .faulted, err := some e }

/-- `raise e`: the step ends with the fault taken (R78). There is no return from a fault (R179). -/
def raise (e : ErrRecord) (s : State) : Result := .next (s.raised e)

/-- A check or an access inside a step that began in `s`: on an error the step ends with the fault, and no write of the
step takes effect, since `s` is the state at its start; else the step goes on (R76, R78). -/
def orRaise {α : Type} (s : State) (v : Except ErrRecord α) (k : α → Result) : Result :=
  match v with
  | .error e => raise e s
  | .ok a => k a

end Sys2Proof.Machine
end

