-- ==== Sys2Proof/Machine/Operands.lean ====
section
/-! DEFINITION. The one operand form that is checked, a register operand (spec/10_state.md R12; spec/30_encoding.md R52), and
the moves of the stack pointer (spec/44_stack.md R115). The other operand form, the immediate of LDI, is the byte itself
(R53). -/

namespace Sys2Proof.Machine

/-- `RegIdx(o)`: the whole byte is the index, and from NREGS up it is a fault; nothing is masked (R12, R52). -/
def regIdx (o : Byte) : Except ErrRecord RegIndex :=
  if h : o.toNat < Config.nregs then .ok ⟨o.toNat, h⟩ else .error (.addressOutOfRange .reg (zext9 o))

/-- One register operand, checked (phase 4, R75). -/
def withReg (o1 : Byte) (s : State) (k : RegIndex → Result) : Result := orRaise s (regIdx o1) k

/-- Two register operands, checked in operand order (phase 4, R75; R79 checks 5 and 6). UNVERIFIED: the order is
the spec's decision D10; unsafe for which error is reported, log 15. -/
def withRegs (o1 o2 : Byte) (s : State) (k : RegIndex → RegIndex → Result) : Result :=
  orRaise s (regIdx o1) fun r1 => orRaise s (regIdx o2) fun r2 => k r1 r2

/-- `SpDec(v)` (R115, R155). UNVERIFIED: the error's name is the spec's decision D14 (log 6), and that only the stack
instructions make this check its D20 (log 18); unsafe. -/
def spDec (v : Byte) : Except ErrRecord Byte := if v = 0 then .error .stackOverflow else .ok (v - 1)

/-- `SpInc(v)` (R115, R155). -/
def spInc (v : Byte) : Except ErrRecord Byte := if v = 255 then .error .stackUnderflow else .ok (v + 1)

end Sys2Proof.Machine
end

