-- ==== Sys2Proof/Machine/Alu.lean ====
section
/-! DEFINITION. The ALU block and the instructions ADD, DEC, MUL (spec/42_alu.md R100 to R104). -/

namespace Sys2Proof.Machine

/-- `Alu(op, a, b)`: over the integers, then reduced to a byte; any other operation is an error (R103, R104). -/
def alu (op : AluOp) (a b : Byte) : Except ErrRecord Byte :=
  match op with
  | .add => .ok (trunc8 ((a.toNat : Int) + b.toNat))
  | .sub => .ok (trunc8 ((a.toNat : Int) - b.toNat))
  | .mul => .ok (trunc8 ((a.toNat : Int) * b.toNat))
  | .unsupported => .error (.unsupportedAluOperation .unsupported)

/-- The shape of the three: x[r1] <- Alu(op, x[r1], x[r2]); pc <- pc + LEN; flags untouched. -/
def execAlu (m : Mnemonic) (op : AluOp) (o1 o2 : Byte) (s : State) : Result :=
  withRegs o1 o2 s fun r1 r2 =>
    orRaise s (alu op (s.getReg r1) (s.getReg r2)) fun v => .next ((s.setReg r1 v).advancePc (lengthOf m))

/-- ADD regA, regB (R100). -/
def execAdd (o1 o2 : Byte) (s : State) : Result := execAlu .add .add o1 o2 s

/-- DEC regA, regB: a two-operand subtraction by the ALU's SUB (R101, C9). -/
def execDec (o1 o2 : Byte) (s : State) : Result := execAlu .dec .sub o1 o2 s

/-- MUL regA, regB: the low byte of the product (R102). -/
def execMul (o1 o2 : Byte) (s : State) : Result := execAlu .mul .mul o1 o2 s

end Sys2Proof.Machine
end

