-- ==== Sys2Proof/Machine/Flags.lean ====
section
/-! DEFINITION. The flags register's bits and the one flag computation, the unsigned compare (spec/10_state.md R16;
spec/43_compare_flags.md R110; spec/47_blocks_and_interfaces.md R154). -/

namespace Sys2Proof.Machine

/-- `fl` with one bit set and every other bit 0. -/
def flagMask (bit : Nat) : FlagBits := 1 <<< bit

/-- `fl.L`, Less (R16). -/
def State.flL (s : State) : Bool := s.fl.getLsbD Config.flLBit

/-- `fl.G`, Greater (R16). -/
def State.flG (s : State) : Bool := s.fl.getLsbD Config.flGBit

/-- `fl.E`, Equal: the one bit an instruction reads (R16, R111). -/
def State.flE (s : State) : Bool := s.fl.getLsbD Config.flEBit

/-- `Compare(a, b)`: the new value of all of `fl`, by unsigned comparison (R110, R154). -/
def compareFlags (a b : Byte) : FlagBits :=
  if a.toNat < b.toNat then flagMask Config.flLBit
  else if a.toNat > b.toNat then flagMask Config.flGBit
  else flagMask Config.flEBit

end Sys2Proof.Machine
end

