-- ==== Sys2Proof/Machine/Compare.lean ====
section
/-! DEFINITION. CMP (spec/43_compare_flags.md R110). -/

namespace Sys2Proof.Machine

/-- CMP regA, regB: all of `fl` is written (R110). -/
def execCmp (o1 o2 : Byte) (s : State) : Result :=
  withRegs o1 o2 s fun r1 r2 =>
    .next ((s.setFl (compareFlags (s.getReg r1) (s.getReg r2))).advancePc (lengthOf .cmp))

end Sys2Proof.Machine
end

