-- ==== Sys2Proof/Machine/ControlFlow.lean ====
section
/-! DEFINITION. CALL, RET, JMP, JEQ, JNE (spec/45_control_flow.md R125 to R131). -/

namespace Sys2Proof.Machine

/-- The return address of CALL: pc + LEN, which must be a memory index (R125; R79 check 8). UNVERIFIED: the
spec's decision D13; safe, log 12. -/
def returnAddress (s : State) : Except ErrRecord Addr :=
  let ret := s.pc + BitVec.ofNat _ (lengthOf .call)
  if Config.memSize ≤ ret.toNat then .error (.addressOutOfRange .mem ret) else .ok ret

/-- CALL reg: the target is read after the stack pointer is written (R125). UNVERIFIED: the spec's decision
D12; unsafe for R7, log 11. -/
def execCall (o1 : Byte) (s : State) : Result :=
  withReg o1 s fun r1 =>
    orRaise s (spDec s.sp) fun v =>
      orRaise s (returnAddress s) fun ret =>
        let s1 := s.setSp v
        orRaise s (memWrite s1 (dataAddr v) (ret.setWidth _)) fun s2 => .next (s2.loadPc (s2.getReg r1))

/-- RET (R126). -/
def execRet (s : State) : Result :=
  orRaise s (memRead s (dataAddr s.sp)) fun v =>
    orRaise s (spInc s.sp) fun p => .next ((s.loadPc v).setSp p)

/-- JMP reg (R127). -/
def execJmp (o1 : Byte) (s : State) : Result :=
  withReg o1 s fun r1 => .next (s.loadPc (s.getReg r1))

/-- A jump of mnemonic `m` that is taken or falls through to the next instruction; the operand is checked in both cases (R75, R128, R129).
UNVERIFIED: the spec's decision D18; safe, log 15. -/
def execBranch (m : Mnemonic) (taken : Bool) (o1 : Byte) (s : State) : Result :=
  withReg o1 s fun r1 => if taken then .next (s.loadPc (s.getReg r1)) else .next (s.advancePc (lengthOf m))

/-- JEQ reg: taken when E = 1 (R128). -/
def execJeq (o1 : Byte) (s : State) : Result := execBranch .jeq s.flE o1 s

/-- JNE reg: taken when E = 0 (R129). -/
def execJne (o1 : Byte) (s : State) : Result := execBranch .jne (!s.flE) o1 s

end Sys2Proof.Machine
end

