-- ==== Sys2Proof/Machine/DataMovement.lean ====
section
/-! DEFINITION. LDI and ST (spec/41_data_movement.md R90, R91). -/

namespace Sys2Proof.Machine

/-- LDI reg, immediate (R90). -/
def execLdi (o1 o2 : Byte) (s : State) : Result :=
  withReg o1 s fun r1 => .next ((s.setReg r1 o2).advancePc (lengthOf .ldi))

/-- ST regA, regB: the address is in regA, the value in regB (R91). -/
def execSt (o1 o2 : Byte) (s : State) : Result :=
  withRegs o1 o2 s fun r1 r2 =>
    orRaise s (memWrite s (dataAddr (s.getReg r1)) (s.getReg r2)) fun t => .next (t.advancePc (lengthOf .st))

end Sys2Proof.Machine
end

