-- ==== Sys2Proof/Machine/Stack.lean ====
section
/-! DEFINITION. PUSH and POP (spec/44_stack.md R116, R117). -/

namespace Sys2Proof.Machine

/-- PUSH reg: the register is read after the stack pointer is written, so PUSH R7 stores the decremented pointer (R116).
UNVERIFIED: the spec's decision D12; unsafe for R7, log 11. -/
def execPush (o1 : Byte) (s : State) : Result :=
  withReg o1 s fun r1 =>
    orRaise s (spDec s.sp) fun v =>
      let s1 := s.setSp v
      orRaise s (memWrite s1 (dataAddr v) (s1.getReg r1)) fun s2 => .next (s2.advancePc (lengthOf .push))

/-- POP reg: the register is loaded first and the increment then sees it, so POP R7 leaves the popped byte plus one
(R117). UNVERIFIED: the spec's decision D12; unsafe for R7, log 11. -/
def execPop (o1 : Byte) (s : State) : Result :=
  withReg o1 s fun r1 =>
    orRaise s (memRead s (dataAddr s.sp)) fun v =>
      if r1 = Config.spIndex then
        orRaise s (spInc v) fun p => .next ((s.setSp p).advancePc (lengthOf .pop))
      else
        orRaise s (spInc s.sp) fun p => .next (((s.setReg r1 v).setSp p).advancePc (lengthOf .pop))

end Sys2Proof.Machine
end

