-- ==== Sys2Proof/Machine/System.lean ====
section
/-! DEFINITION. HLT and PRN (spec/46_system_io.md R140, R141, R143). -/

namespace Sys2Proof.Machine

/-- HLT: STATUS becomes Halted and nothing else changes, `pc` included (R140). -/
def execHlt (s : State) : Result := .next (s.setStatus .halted)

/-- PRN reg: one byte is handed to the output (R141, R143). -/
def execPrn (o1 : Byte) (s : State) : Result :=
  withReg o1 s fun r1 => .next ((s.emit (s.getReg r1)).advancePc (lengthOf .prn))

end Sys2Proof.Machine
end

