-- ==== Sys2Proof/Machine/Dispatch.lean ====
section
/-! DEFINITION. Phases 4 and 5 of the step: the meaning of each instruction (spec/40_execution_loop.md R75, R76, R80). -/

namespace Sys2Proof.Machine

def exec (i : Instr) (s : State) : Host.Outcome State Fault Refusal :=
  match i with
  | .ldi o1 o2 => Sys2Proof.Machine.execLdi o1 o2 s
  | .prn o1 => Sys2Proof.Machine.execPrn o1 s
  | .hlt => Sys2Proof.Machine.execHlt s
  | .add o1 o2 => Sys2Proof.Machine.execAdd o1 o2 s
  | .dec o1 o2 => Sys2Proof.Machine.execDec o1 o2 s
  | .mul o1 o2 => Sys2Proof.Machine.execMul o1 o2 s
  | .push o1 => Sys2Proof.Machine.execPush o1 s
  | .pop o1 => Sys2Proof.Machine.execPop o1 s
  | .call o1 => Sys2Proof.Machine.execCall o1 s
  | .ret => Sys2Proof.Machine.execRet s
  | .st o1 o2 => Sys2Proof.Machine.execSt o1 o2 s
  | .cmp o1 o2 => Sys2Proof.Machine.execCmp o1 o2 s
  | .jmp o1 => Sys2Proof.Machine.execJmp o1 s
  | .jeq o1 => Sys2Proof.Machine.execJeq o1 s
  | .jne o1 => Sys2Proof.Machine.execJne o1 s

end Sys2Proof.Machine
end

