-- ==== Sys2Proof/Machine/Fetch.lean ====
section
/-! DEFINITION. Fetching an instruction from memory (spec/40_execution_loop.md R72 to R74), and placing the bytes of one
where the next step fetches them. -/

namespace Sys2Proof.Machine

/-- Phases 1 to 3 of the step: the instruction at `pc`, or the fault its fetch raises (R72, R73, R74). -/
def fetchInstr (map : Mnemonic → Byte) (s : State) : Except ErrRecord Instr :=
  readInstr map (fun op => .invalidOpcode s.pc op) fun k => memRead s (s.pc + BitVec.ofNat _ k)

/-- The bytes of memory from `pc` to the top of the address space, for statements about decoding in place. -/
def State.bytesFromPc (s : State) : List Byte :=
  (List.range (Config.memSize - s.pc.toNat)).map fun k => s.memByte (s.pc.toNat + k)

/-- A memory with a list of bytes written from an address upward; a byte whose address does not exist is not written. -/
def Memory.writeBytes : Memory → Nat → List Byte → Memory
  | m, _, [] => m
  | m, a, b :: bs => if a < Config.memSize then (m.set a b).writeBytes (a + 1) bs else m

/-- The bytes placed at `pc` in a core that runs: what Load and Start do for a program's first instruction (R161, R162;
log 13). -/
def State.placeAndRun (s : State) (bs : List Byte) : State :=
  { s with mem := s.mem.writeBytes s.pc.toNat bs, status := .running }

end Sys2Proof.Machine
end

