-- ==== Sys2Proof/Machine/Loop.lean ====
section
/-! DEFINITION. One pass of the execution loop (spec/40_execution_loop.md R70, R71, R80, R81). -/

namespace Sys2Proof.Machine

/-- The step of a Running core (R80). -/
def runInstr (map : Mnemonic → Byte) (s : State) : Result := orRaise s (fetchInstr map s) fun i => exec i s

/-- The step for a given OPCODE_MAP (R57, R80). In Idle, Halted and Faulted the core takes no step and changes no state
(R70): the model answers the same state. DESIGN CHOICE, safe, log 7. -/
def stepWith (map : Mnemonic → Byte) (s : State) : Result :=
  match s.status with
  | .running => runInstr map s
  | .idle => .next s
  | .halted => .next s
  | .faulted => .next s

/-- The loop for a number of steps (R81). The hardware has no step limit (R82); a number stands for any finite part. -/
def runSteps (map : Mnemonic → Byte) : Nat → State → Result
  | 0, s => .next s
  | k + 1, s =>
    match stepWith map s with
    | .next t => runSteps map k t
    | .fault r => .fault r
    | .refused r => .refused r

end Sys2Proof.Machine
end

