-- ==== Sys2Proof/Machine/Step.lean ====
section
/-! DEFINITION. The step under the default opcode map (spec/40_execution_loop.md R80), and the state whose next step runs a
given word of the opcode table. -/

namespace Sys2Proof.Machine

/-- One step (R80). -/
def step : State → Host.Outcome State Fault Refusal := stepWith Config.opcodeMap

/-- The state with a word of the opcode table stored at `pc` and the core Running. DESIGN CHOICE, safe, log 10, log 13. -/
def State.withFetchWord (s : State) (nbits w : Nat) : State := s.placeAndRun (tableBytes nbits w)

end Sys2Proof.Machine
end

