-- ==== Sys2Proof/Machine/HostOps.lean ====
section
/-! DEFINITION. What the host does to the core from outside a step: Reset, Load, Start, Observe
(spec/47_blocks_and_interfaces.md R160 to R164; spec/70_reset_and_hazards.md R200). -/

namespace Sys2Proof.Machine

/-- A dealing of the host with the core that can change its state (R160). DESIGN CHOICE: it lies between steps; unsafe,
log 20. -/
inductive HostOp where
  | reset
  | load (image : List Byte)
  | start
deriving DecidableEq, Repr

/-- `Reset`: always allowed; every piece of state takes its reset value (R200). -/
def hostReset (_ : State) : State := State.reset

/-- `Load(image)`: only in Idle, else ignored; more than MEM_SIZE bytes write nothing and fault the core (R160, R161).
UNVERIFIED: the spec's decision D17; unsafe, log 14. -/
def hostLoad (image : List Byte) (s : State) : State :=
  if s.status = .idle then
    if image.length > Config.memSize then s.raised (.addressOutOfRange .mem (BitVec.ofNat _ Config.memSize))
    else { s with mem := s.mem.writeBytes 0 image }
  else s

/-- `Start`: only in Idle, else ignored; STATUS becomes Running (R160, R162). -/
def hostStart (s : State) : State := if s.status = .idle then s.setStatus .running else s

/-- One dealing of the host. -/
def applyHostOp : HostOp → State → State
  | .reset, s => hostReset s
  | .load image, s => hostLoad image s
  | .start, s => hostStart s

/-- `Observe`: in Halted or Faulted the host may read the whole result; otherwise there is no observation (R160, R163). -/
def observe (s : State) : Option State :=
  match s.status with
  | .halted => some s
  | .faulted => some s
  | .idle => none
  | .running => none

/-- The launch state of an image: Reset, Load, Start (R164, R202). -/
def boot (image : List Byte) : State := hostStart (hostLoad image State.reset)

end Sys2Proof.Machine
end

