-- ==== Sys2Proof/Safety.lean ====
section
/-! DEFINITION. The terms in which statements are made: what a transition keeps, the invariant of reachable states, the
reachable states themselves, and the safe end of a run. -/

namespace Sys2Proof.Machine

/-- An opcode map under which no two instructions share a byte: the one requirement of R57. -/
def OpcodesDistinct (map : Mnemonic → Byte) : Prop := ∀ m n, map m = map n → m = n

/-- The operand byte that names register `r` (R52). -/
def regByte (r : RegIndex) : Byte := BitVec.ofNat _ r.val

/-- A result is the taking of a fault: STATUS Faulted and ERR the record, and nothing else changed (R78, R178). -/
def TakesFault (res : Result) (s : State) (e : ErrRecord) : Prop :=
  res = .next { s with status := .faulted, err := some e }

/-- A one-byte instruction under an opcode map: how it decodes, what a step at it runs, and the fault of a fetch past the
top of memory (R50, R61, R72). -/
def OneByteForm (map : Mnemonic → Byte) (m : Mnemonic) (i : Instr) : Prop :=
  (∀ rest, decodeWith map (map m :: rest) = .ok (i, rest)) ∧
  (∀ s : State, s.status = .running → s.pc.toNat ≤ 255 → s.memByte s.pc.toNat = map m → stepWith map s = exec i s) ∧
  (∀ s : State, s.status = .running → s.pc.toNat = 256 → TakesFault (stepWith map s) s (.addressOutOfRange .mem 256))

/-- A two-byte instruction under an opcode map: how it decodes, what a step at it runs, and the fault where its operand
byte would lie above 255 (R50, R61, R74). -/
def TwoByteForm (map : Mnemonic → Byte) (m : Mnemonic) (mk : Byte → Instr) : Prop :=
  (∀ o1 rest, decodeWith map (map m :: o1 :: rest) = .ok (mk o1, rest)) ∧
  (∀ s : State, s.status = .running → s.pc.toNat ≤ 254 → s.memByte s.pc.toNat = map m →
    stepWith map s = exec (mk (s.memByte (s.pc.toNat + 1))) s) ∧
  (∀ s : State, s.status = .running → s.pc.toNat = 255 → s.memByte s.pc.toNat = map m →
    TakesFault (stepWith map s) s (.addressOutOfRange .mem 256))

/-- A three-byte instruction under an opcode map: how it decodes, what a step at it runs, and the fault where an operand
byte would lie above 255; the address reported is 256 also at `pc` 255 (R50, R61, R74). -/
def ThreeByteForm (map : Mnemonic → Byte) (m : Mnemonic) (mk : Byte → Byte → Instr) : Prop :=
  (∀ o1 o2 rest, decodeWith map (map m :: o1 :: o2 :: rest) = .ok (mk o1 o2, rest)) ∧
  (∀ s : State, s.status = .running → s.pc.toNat ≤ 253 → s.memByte s.pc.toNat = map m →
    stepWith map s = exec (mk (s.memByte (s.pc.toNat + 1)) (s.memByte (s.pc.toNat + 2))) s) ∧
  (∀ s : State, s.status = .running → s.pc.toNat = 254 ∨ s.pc.toNat = 255 → s.memByte s.pc.toNat = map m →
    TakesFault (stepWith map s) s (.addressOutOfRange .mem 256))

/-- An instruction whose one register operand is checked: a byte above 7 is a fault that names it (R12, R60, R75). -/
def ChecksRegister (mk : Byte → Instr) : Prop :=
  ∀ (o1 : Byte) (s : State), 7 < o1.toNat → TakesFault (exec (mk o1) s) s (.addressOutOfRange .reg (zext9 o1))

/-- An instruction whose two register operands are checked, the first one first (R12, R60, R75, R79). -/
def ChecksTwoRegisters (mk : Byte → Byte → Instr) : Prop :=
  (∀ (o1 o2 : Byte) (s : State), 7 < o1.toNat →
    TakesFault (exec (mk o1 o2) s) s (.addressOutOfRange .reg (zext9 o1))) ∧
  (∀ (o1 o2 : Byte) (s : State), o1.toNat ≤ 7 → 7 < o2.toNat →
    TakesFault (exec (mk o1 o2) s) s (.addressOutOfRange .reg (zext9 o2)))

/-- The registers an instruction can write: the destination of LDI, ADD, DEC, MUL and POP, and the stack pointer for
PUSH, POP, CALL and RET. -/
def MayWriteReg (i : Instr) (r : RegIndex) : Prop :=
  match i with
  | .ldi o1 _  => o1 = regByte r
  | .add o1 _  => o1 = regByte r
  | .dec o1 _  => o1 = regByte r
  | .mul o1 _  => o1 = regByte r
  | .pop o1    => o1 = regByte r ∨ r = 7
  | .push _    => r = 7
  | .call _    => r = 7
  | .ret       => r = 7
  | .prn _     => False
  | .hlt       => False
  | .st _ _    => False
  | .cmp _ _   => False
  | .jmp _     => False
  | .jeq _     => False
  | .jne _     => False

/-- The address an instruction stores its byte to: the value of regA for ST, the decremented stack pointer for PUSH and
CALL, none for the others (R33). -/
def storeAddress (i : Instr) (s : State) : Option Nat :=
  match i with
  | .st o1 _ =>
    match regIdx o1 with
    | .ok r => some (s.getReg r).toNat
    | .error _ => none
  | .push _    => some (s.sp.toNat - 1)
  | .call _    => some (s.sp.toNat - 1)
  | .ldi _ _   => none
  | .prn _     => none
  | .hlt       => none
  | .add _ _   => none
  | .dec _ _   => none
  | .mul _ _   => none
  | .pop _     => none
  | .ret       => none
  | .cmp _ _   => none
  | .jmp _     => none
  | .jeq _     => none
  | .jne _     => none

/-- Every register not listed is unchanged. -/
def RegsKeptBut (rs : List (RegIndex)) (s t : State) : Prop := ∀ r, r ∉ rs → t.getReg r = s.getReg r

/-- Every byte of memory whose address is not listed reads as before. -/
def MemKeptBut (as : List Nat) (s t : State) : Prop := ∀ a, a ∉ as → t.memByte a = s.memByte a

/-- STATUS and ERR are unchanged. -/
def SystemKept (s t : State) : Prop := t.status = s.status ∧ t.err = s.err

/-- ERR is not None exactly when STATUS is Faulted (R19). -/
def ErrMatchesStatus (s : State) : Prop := s.err.isSome ↔ s.status = .faulted

/-- What ERR can hold: an invalid opcode at an address of memory and with a byte that dispatches to nothing, a memory
address of exactly 256, a register index 8 to 255, or a stack error; never the ALU's error (R172, R173, R174). -/
def ErrPossible (map : Mnemonic → Byte) : Option ErrRecord → Prop
  | none => True
  | some (.invalidOpcode addr op) => addr.toNat ≤ 255 ∧ dispatchWith map op = none
  | some (.addressOutOfRange .mem v) => v.toNat = 256
  | some (.addressOutOfRange .reg v) => 8 ≤ v.toNat ∧ v.toNat ≤ 255
  | some (.unsupportedAluOperation _) => False
  | some .stackOverflow => True
  | some .stackUnderflow => True

/-- The invariant of the machine under an opcode map: canonical memory; `pc` at most 256 (R15); `fl` one of its four
values (R16); ERR and STATUS agree (R19); ERR is a record the machine can make (R172 to R174). -/
structure Inv (map : Mnemonic → Byte) (s : State) : Prop where
  memCanonical : s.mem.wf
  pcInRange : s.pc.toNat ≤ 256
  flOneHot : s.fl = 0x00 ∨ s.fl = 0x01 ∨ s.fl = 0x02 ∨ s.fl = 0x04
  errStatus : ErrMatchesStatus s
  errPossible : ErrPossible map s.err

/-- The states a core can come to: reset, then any dealings of the host and any steps, in any order. -/
inductive Reachable : State → Prop where
  | reset : Reachable State.reset
  | host (op : HostOp) {s : State} : Reachable s → Reachable (applyHostOp op s)
  | step {s t : State} : Reachable s → step s = .next t → Reachable t

/-- A run is over (R81). -/
def State.Ended (s : State) : Prop := s.status = .halted ∨ s.status = .faulted

/-- A run has ended well: by HLT, with no error (R81, R140). -/
def State.EndedWell (s : State) : Prop := s.status = .halted ∧ s.err = none

/-- A state that is no failed end: a safe run meets only such states (R81). -/
def State.Safe (s : State) : Prop := s.status ≠ .faulted

end Sys2Proof.Machine
end

