-- ==== Sys2Proof/WellFormed.lean ====
section
/-! DEFINITION. When an instruction names only registers that exist (spec/30_encoding.md R52, R60). -/

namespace Sys2Proof

/-- The operand bytes of kind register, in operand order (R50, R75). LDI's second byte is an immediate (R53). -/
def Instr.regOperands : Instr → List Byte
  | .ldi o1 _  => [o1]
  | .prn o1    => [o1]
  | .hlt       => []
  | .add o1 o2 => [o1, o2]
  | .dec o1 o2 => [o1, o2]
  | .mul o1 o2 => [o1, o2]
  | .push o1   => [o1]
  | .pop o1    => [o1]
  | .call o1   => [o1]
  | .ret       => []
  | .st o1 o2  => [o1, o2]
  | .cmp o1 o2 => [o1, o2]
  | .jmp o1    => [o1]
  | .jeq o1    => [o1]
  | .jne o1    => [o1]

/-- Every register operand is an index below NREGS (R52, R60). -/
def Instr.wellFormed (i : Instr) : Bool :=
  i.regOperands.all fun o => o.toNat < Config.nregs

end Sys2Proof
end

