-- ==== Sys2Proof/Certificates/Slice0/Obligations.lean ====
section
/-! DEFINITION. The statements for the provers, each from a rule of spec/. The opcode map is an argument wherever bytes of an
instruction matter, since R57 makes it a parameter and its default values are the spec's decision D1 (log 1). -/

open Sys2Proof Sys2Proof.Machine

/-! Encoding and the dispatcher -/

/-- R54, R56 at the default opcode map (the spec's decisions D1 and D2, logs 1 and 4): one word of each family, written out
from the table, decodes to its instruction, and the bytes after it are left over. -/
def Obligations.DecodedWordsAreTheSpecsInstructions : Prop :=
  decode [0b10000010, 0x00, 0x08, 0x47] = .ok (.ldi 0 8, [0x47]) ∧
  decode [0b10000100, 0x01, 0x02] = .ok (.st 1 2, []) ∧
  decode [0b10100000, 0x00, 0x07] = .ok (.add 0 7, []) ∧
  decode [0b01100110, 0x07, 0x01] = .ok (.dec 7 1, []) ∧
  decode [0b10100010, 0x03, 0x04] = .ok (.mul 3 4, []) ∧
  decode [0b10100111, 0x05, 0x06] = .ok (.cmp 5 6, []) ∧
  decode [0b01000101, 0x00] = .ok (.push 0, []) ∧
  decode [0b01000110, 0x01] = .ok (.pop 1, []) ∧
  decode [0b01010000, 0x01] = .ok (.call 1, []) ∧
  decode [0b00010001, 0xFF] = .ok (.ret, [0xFF]) ∧
  decode [0b01010100, 0x02] = .ok (.jmp 2, []) ∧
  decode [0b01010101, 0x02] = .ok (.jeq 2, []) ∧
  decode [0b01010110, 0x02] = .ok (.jne 2, []) ∧
  decode [0b00000001] = .ok (.hlt, []) ∧
  decode [0b01000111, 0x03] = .ok (.prn 3, [])

/-- R50, R54, R57: for every opcode map that gives each instruction a byte of its own, decoding an encoded instruction
gives it back, with every operand byte at every value, and leaves what follows. -/
def Obligations.DecodeOfEncodeIsTheInstruction : Prop :=
  ∀ map, OpcodesDistinct map → ∀ (i : Instr) (rest : List Byte), decodeWith map (encodeWith map i ++ rest) = .ok (i, rest)

/-- R50, R51: bytes that decode are the encoding of what they decode to, so no bit of them is dropped and each word has one
meaning. -/
def Obligations.EncodeOfDecodeIsTheBytes : Prop :=
  ∀ (map : Mnemonic → Byte) (bs rest : List Byte) (i : Instr),
    decodeWith map bs = .ok (i, rest) → bs = encodeWith map i ++ rest

/-- R58, R73, R172: 241 of the 256 byte values are no opcode under the default map (D1), 0x00 and 0xA1 among them; and
under any map a step at a byte that is no opcode takes `InvalidOpcode(pc, byte)`, wherever it stands, also at address
255. That a fault changes nothing else is the spec's decision D11 (log 15). -/
def Obligations.InvalidOpcodeFaultsWithAddressAndByte : Prop :=
  ((List.range 256).filter fun n => (dispatch (BitVec.ofNat 8 n)).isNone).length = 241 ∧
  dispatch 0x00 = none ∧ dispatch 0xA1 = none ∧
  ∀ (map : Mnemonic → Byte) (s : State), s.status = .running → s.pc.toNat ≤ 255 →
    (∀ m, map m ≠ s.memByte s.pc.toNat) →
    TakesFault (stepWith map s) s (.invalidOpcode s.pc (s.memByte s.pc.toNat))

/-- R61, R72, R74, R173: a fetch above address 255 is a fault with the address: the opcode's own, and for an
instruction that begins inside memory the first operand byte outside it, which is always 256. That a fault changes
nothing else is the spec's decision D11 (log 15). That pc does not wrap and the fetch faults is the spec's decision D5
(log 2, unsafe for a claim of exactly this fault); that the first byte outside memory is the one reported is its D10
(log 15). -/
def Obligations.FetchAboveTopOfMemoryFaults : Prop :=
  ∀ (map : Mnemonic → Byte) (s : State), s.status = .running →
    (255 < s.pc.toNat → TakesFault (stepWith map s) s (.addressOutOfRange .mem s.pc)) ∧
    (∀ m, s.pc.toNat ≤ 255 → dispatchWith map (s.memByte s.pc.toNat) = some m → 256 < s.pc.toNat + lengthOf m →
      TakesFault (stepWith map s) s (.addressOutOfRange .mem 256))

/-! The step -/

/-- R76, R80: when the bytes of memory from `pc` on decode to an instruction, a step of a Running core is that
instruction's meaning and nothing around it. Register operands need no check for this: it is part of the meaning. -/
def Obligations.StepRunsTheDecodedInstruction : Prop :=
  ∀ (s : State) (i : Instr) (rest : List Byte), s.status = .running →
    decode s.bytesFromPc = .ok (i, rest) → step s = exec i s

/-- R74: a step does not depend on bytes above its own instruction: two Running states that differ only in a byte of memory
outside the instruction at `pc` fetch the same instruction. -/
def Obligations.FetchReadsOnlyTheInstructionsBytes : Prop :=
  ∀ (map : Mnemonic → Byte) (s : State) (i : Instr) (a : Nat) (v : Byte), s.pc.toNat ≤ 255 →
    fetchInstr map s = .ok i → (a < s.pc.toNat ∨ s.pc.toNat + i.length ≤ a) →
    fetchInstr map { s with mem := s.mem.set a v } = .ok i

/-- R70: in Idle, Halted and Faulted no step is taken and no state changes. That the model answers the same state, and does
not stop, is its own choice (log 7). -/
def Obligations.NoStateChangesOutsideRunning : Prop :=
  ∀ (map : Mnemonic → Byte) (s : State), s.status = .idle ∨ s.status = .halted ∨ s.status = .faulted →
    stepWith map s = .next s

/-- R80: every step answers a next state, and so does every instruction with any operand bytes in any state; no
instruction of this hardware stops the model. R80 speaks of a Running core only. That a step outside Running answers
the same state is the model's choice (log 7), that an error is a next state is the model's reading of R78 and R178
(log 19), and that exec is defined in every STATUS and for every pc is the model's too (log 23). -/
def Obligations.EveryStepAnswersANextState : Prop :=
  (∀ (map : Mnemonic → Byte) (s : State), ∃ t, stepWith map s = .next t) ∧
  (∀ (i : Instr) (s : State), ∃ t, exec i s = .next t)

/-- R78, R178 (the spec's decision D11, log 15): a step that faults changes STATUS and ERR and nothing else. -/
def Obligations.FaultChangesOnlyStatusAndErr : Prop :=
  ∀ (map : Mnemonic → Byte) (s t : State), s.status = .running → stepWith map s = .next t → t.status = .faulted →
    ∃ e, t = { s with status := .faulted, err := some e }

/-- R18, R140: a Running core goes on Running, or is Halted by a HLT it fetched, or is Faulted; it never goes to Idle. -/
def Obligations.RunningEndsOnlyByHltOrFault : Prop :=
  ∀ (map : Mnemonic → Byte) (s t : State), s.status = .running → stepWith map s = .next t →
    t.status = .running ∨ (t.status = .halted ∧ fetchInstr map s = .ok .hlt) ∨ t.status = .faulted

/-! Data movement -/

/-- R90: LDI. Not the document's but the spec's own decisions, unverified: that a fault changes nothing else (D11) and
the order of the checks (D10), both log 15; the fault of a fetch past address 255 (D5, log 2); the order of the
operand bytes (D2, log 4). -/
def Obligations.LdiLoadsTheImmediate : Prop :=
  (∀ (r : Fin 8) (o2 : Byte) (s : State), ∃ t, exec (.ldi (regByte r) o2) s = .next t ∧
    t.getReg r = o2 ∧ t.pc = s.pc + 3 ∧
    RegsKeptBut [r] s t ∧ MemKeptBut [] s t ∧ t.fl = s.fl ∧ SystemKept s t ∧ t.out = s.out) ∧
  (∀ o2, ChecksRegister fun o1 => .ldi o1 o2) ∧
  (∀ map, OpcodesDistinct map → ThreeByteForm map .ldi .ldi)

/-- R91: ST. Not the document's but the spec's own decisions, unverified: that a fault changes nothing else (D11) and
the order of the checks (D10), both log 15; the fault of a fetch past address 255 (D5, log 2); the order of the
operand bytes (D2, log 4). -/
def Obligations.StStoresRegBAtTheAddressInRegA : Prop :=
  (∀ (r1 r2 : Fin 8) (s : State), ∃ t, exec (.st (regByte r1) (regByte r2)) s = .next t ∧
    t.memByte (s.getReg r1).toNat = s.getReg r2 ∧ t.pc = s.pc + 3 ∧
    RegsKeptBut [] s t ∧ MemKeptBut [(s.getReg r1).toNat] s t ∧ t.fl = s.fl ∧ SystemKept s t ∧ t.out = s.out) ∧
  ChecksTwoRegisters .st ∧
  (∀ map, OpcodesDistinct map → ThreeByteForm map .st .st)

/-- R31: `MemRead`. -/
def Obligations.MemReadGivesTheByteOrTheRangeError : Prop :=
  ∀ (s : State) (addr : Addr),
    (255 < addr.toNat → memRead s addr = .error (.addressOutOfRange .mem addr)) ∧
    (addr.toNat ≤ 255 → memRead s addr = .ok (s.memByte addr.toNat))

/-- R32: `MemWrite`; a later read at the address gives the byte, every other byte is unchanged, and the memory stays in its
canonical form. -/
def Obligations.MemWriteChangesOneByteOrIsARangeError : Prop :=
  ∀ (s : State) (addr : Addr) (v : Byte),
    (255 < addr.toNat → memWrite s addr v = .error (.addressOutOfRange .mem addr)) ∧
    (addr.toNat ≤ 255 → ∃ t, memWrite s addr v = .ok t ∧ memRead t addr = .ok v ∧ MemKeptBut [addr.toNat] s t ∧
      t = { s with mem := t.mem } ∧ (s.mem.wf → t.mem.wf))

/-- R41: a store is seen by the very next fetch: an ST that stores HLT's opcode at the address of the next instruction makes
the next step halt. -/
def Obligations.StoredOpcodeIsFetchedByTheNextStep : Prop :=
  ∀ map, OpcodesDistinct map → ∀ (r1 r2 : Fin 8) (s : State), s.status = .running →
    zext9 (s.getReg r1) = s.pc + 3 → s.getReg r2 = map .hlt →
    ∃ t, exec (.st (regByte r1) (regByte r2)) s = .next t ∧ stepWith map t = .next { t with status := .halted }

/-! Arithmetic -/

/-- R100: ADD. Not the document's but the spec's own decisions, unverified: that a fault changes nothing else (D11)
and the order of the checks (D10), both log 15; the fault of a fetch past address 255 (D5, log 2); the order of the
operand bytes (D2, log 4). -/
def Obligations.AddWritesTheSumModulo256 : Prop :=
  (∀ (r1 r2 : Fin 8) (s : State), ∃ t, exec (.add (regByte r1) (regByte r2)) s = .next t ∧
    (t.getReg r1).toNat = ((s.getReg r1).toNat + (s.getReg r2).toNat) % 256 ∧ t.pc = s.pc + 3 ∧
    RegsKeptBut [r1] s t ∧ MemKeptBut [] s t ∧ t.fl = s.fl ∧ SystemKept s t ∧ t.out = s.out) ∧
  ChecksTwoRegisters .add ∧
  (∀ map, OpcodesDistinct map → ThreeByteForm map .add .add)

/-- R101: DEC, a subtraction of two registers. Not the document's but the spec's own decisions, unverified: that a
fault changes nothing else (D11) and the order of the checks (D10), both log 15; the fault of a fetch past address 255
(D5, log 2); the order of the operand bytes (D2, log 4). -/
def Obligations.DecWritesTheDifferenceModulo256 : Prop :=
  (∀ (r1 r2 : Fin 8) (s : State), ∃ t, exec (.dec (regByte r1) (regByte r2)) s = .next t ∧
    ((t.getReg r1).toNat : Int) = ((s.getReg r1).toNat - (s.getReg r2).toNat) % 256 ∧ t.pc = s.pc + 3 ∧
    RegsKeptBut [r1] s t ∧ MemKeptBut [] s t ∧ t.fl = s.fl ∧ SystemKept s t ∧ t.out = s.out) ∧
  ChecksTwoRegisters .dec ∧
  (∀ map, OpcodesDistinct map → ThreeByteForm map .dec .dec)

/-- R102: MUL, the low byte of the product. Not the document's but the spec's own decisions, unverified: that a fault
changes nothing else (D11) and the order of the checks (D10), both log 15; the fault of a fetch past address 255 (D5,
log 2); the order of the operand bytes (D2, log 4). -/
def Obligations.MulWritesTheProductModulo256 : Prop :=
  (∀ (r1 r2 : Fin 8) (s : State), ∃ t, exec (.mul (regByte r1) (regByte r2)) s = .next t ∧
    (t.getReg r1).toNat = ((s.getReg r1).toNat * (s.getReg r2).toNat) % 256 ∧ t.pc = s.pc + 3 ∧
    RegsKeptBut [r1] s t ∧ MemKeptBut [] s t ∧ t.fl = s.fl ∧ SystemKept s t ∧ t.out = s.out) ∧
  ChecksTwoRegisters .mul ∧
  (∀ map, OpcodesDistinct map → ThreeByteForm map .mul .mul)

/-- R104: the ALU's three operations on unsigned bytes modulo 256, the same bits as the two's-complement signed results,
and the laws R104 lists. -/
def Obligations.AluIsArithmeticModulo256 : Prop :=
  ∀ a b c : Byte, ∃ sum diff prod : Byte,
    alu .add a b = .ok sum ∧ alu .sub a b = .ok diff ∧ alu .mul a b = .ok prod ∧
    sum.toNat = (a.toNat + b.toNat) % 256 ∧ (diff.toNat : Int) = ((a.toNat : Int) - b.toNat) % 256 ∧
    prod.toNat = (a.toNat * b.toNat) % 256 ∧
    sum = BitVec.ofInt 8 (a.toInt + b.toInt) ∧ diff = BitVec.ofInt 8 (a.toInt - b.toInt) ∧
    prod = BitVec.ofInt 8 (a.toInt * b.toInt) ∧
    alu .add b a = .ok sum ∧ alu .mul b a = .ok prod ∧
    (∃ bc, alu .add b c = .ok bc ∧ alu .add a bc = alu .add sum c) ∧
    (∃ bc, alu .mul b c = .ok bc ∧ alu .mul a bc = alu .mul prod c) ∧
    alu .add diff b = .ok a ∧ alu .sub a a = .ok 0 ∧ alu .add a 0 = .ok a ∧ alu .mul a 1 = .ok a

/-- R104: DEC then ADD of the same two different registers restores the first, and moves only `pc`. -/
def Obligations.DecThenAddRestoresTheRegister : Prop :=
  ∀ (r1 r2 : Fin 8) (s : State), r1 ≠ r2 → ∃ t u, exec (.dec (regByte r1) (regByte r2)) s = .next t ∧
    exec (.add (regByte r1) (regByte r2)) t = .next u ∧ RegsKeptBut [] s u ∧ MemKeptBut [] s u ∧ u.fl = s.fl ∧
    SystemKept s u ∧ u.out = s.out ∧ u.pc = s.pc + 6

/-- R103, R174: no instruction and no step records the ALU's unsupported operation, in a core with no error recorded.
That the ALU's selector is internal and never another one is the spec's decision D19 (log 9). -/
def Obligations.UnsupportedAluOperationIsUnreachable : Prop :=
  (∀ (i : Instr) (s t : State) (op : AluOp), s.err = none → exec i s = .next t →
    t.err ≠ some (.unsupportedAluOperation op)) ∧
  (∀ (map : Mnemonic → Byte) (s t : State) (op : AluOp), s.err = none → stepWith map s = .next t →
    t.err ≠ some (.unsupportedAluOperation op))

/-! Compare and the flags -/

/-- R110: CMP sets exactly one of Less (bit 2), Greater (bit 1) and Equal (bit 0) by unsigned comparison, and clears
every other bit, whatever the flags held. Not the document's but the spec's own decisions, unverified: that a fault
changes nothing else (D11) and the order of the checks (D10), both log 15; the fault of a fetch past address 255 (D5,
log 2); the order of the operand bytes (D2, log 4); the width of fl and its zero bits 7 to 3 (D6, log 16). -/
def Obligations.CmpSetsExactlyOneFlag : Prop :=
  (∀ (r1 r2 : Fin 8) (s : State), ∃ t, exec (.cmp (regByte r1) (regByte r2)) s = .next t ∧
    ((s.getReg r1).toNat < (s.getReg r2).toNat → t.fl = 0b00000100) ∧
    ((s.getReg r1).toNat > (s.getReg r2).toNat → t.fl = 0b00000010) ∧
    ((s.getReg r1).toNat = (s.getReg r2).toNat → t.fl = 0b00000001) ∧ t.pc = s.pc + 3 ∧
    RegsKeptBut [] s t ∧ MemKeptBut [] s t ∧ SystemKept s t ∧ t.out = s.out) ∧
  ChecksTwoRegisters .cmp ∧
  (∀ map, OpcodesDistinct map → ThreeByteForm map .cmp .cmp)

/-- R16, R111: no instruction but CMP changes the flags. -/
def Obligations.OnlyCmpWritesTheFlags : Prop :=
  ∀ (i : Instr) (s t : State), i.mnemonic ≠ .cmp → exec i s = .next t → t.fl = s.fl

/-- R16, R111: JEQ and JNE read the Equal bit and no other bit, and no other instruction reads the flags: with any other
flags that agree where they are read, an instruction does the same and keeps those flags; a CMP does the same whatever
the flags were. -/
def Obligations.OnlyJeqAndJneReadAFlagAndOnlyEqual : Prop :=
  (∀ (i : Instr) (s t : State) (f : Byte), i.mnemonic ≠ .cmp →
    (i.mnemonic = .jeq ∨ i.mnemonic = .jne → f.getLsbD 0 = s.fl.getLsbD 0) →
    exec i s = .next t → exec i { s with fl := f } = .next { t with fl := f }) ∧
  (∀ (r1 r2 : Fin 8) (s : State) (f : Byte),
    exec (.cmp (regByte r1) (regByte r2)) { s with fl := f } = exec (.cmp (regByte r1) (regByte r2)) s)

/-! The stack -/

/-- R115, R116, R175: PUSH. The clause on register 7 is the spec's decision D12 (log 11), the name of the error D14.
Not the document's but the spec's own decisions, unverified: that a fault changes nothing else (D11) and the order of
the checks (D10), both log 15; the fault of a fetch past address 255 (D5, log 2). -/
def Obligations.PushStoresBelowTheStackPointer : Prop :=
  (∀ (r : Fin 8) (s : State), s.sp ≠ 0 → ∃ t, exec (.push (regByte r)) s = .next t ∧
    t.sp.toNat = s.sp.toNat - 1 ∧
    t.memByte (s.sp.toNat - 1) = (if r = 7 then s.sp - 1 else s.getReg r) ∧ t.pc = s.pc + 2 ∧
    RegsKeptBut [7] s t ∧ MemKeptBut [s.sp.toNat - 1] s t ∧ t.fl = s.fl ∧ SystemKept s t ∧ t.out = s.out) ∧
  (∀ (r : Fin 8) (s : State), s.sp = 0 → TakesFault (exec (.push (regByte r)) s) s .stackOverflow) ∧
  ChecksRegister .push ∧
  (∀ map, OpcodesDistinct map → TwoByteForm map .push .push)

/-- R115, R117, R176: POP. The clauses on register 7 are the spec's decision D12 (log 11), the name of the error D14.
Not the document's but the spec's own decisions, unverified: that a fault changes nothing else (D11) and the order of
the checks (D10), both log 15; the fault of a fetch past address 255 (D5, log 2). -/
def Obligations.PopLoadsTheTopOfStack : Prop :=
  (∀ (r : Fin 8) (s : State), r ≠ 7 → s.sp ≠ 255 → ∃ t, exec (.pop (regByte r)) s = .next t ∧
    t.getReg r = s.memByte s.sp.toNat ∧ t.sp.toNat = s.sp.toNat + 1 ∧ t.pc = s.pc + 2 ∧
    RegsKeptBut [r, 7] s t ∧ MemKeptBut [] s t ∧ t.fl = s.fl ∧ SystemKept s t ∧ t.out = s.out) ∧
  (∀ (s : State), s.memByte s.sp.toNat ≠ 255 → ∃ t, exec (.pop (regByte 7)) s = .next t ∧
    t.sp.toNat = (s.memByte s.sp.toNat).toNat + 1 ∧ t.pc = s.pc + 2 ∧
    RegsKeptBut [7] s t ∧ MemKeptBut [] s t ∧ t.fl = s.fl ∧ SystemKept s t ∧ t.out = s.out) ∧
  (∀ (r : Fin 8) (s : State), r ≠ 7 → s.sp = 255 → TakesFault (exec (.pop (regByte r)) s) s .stackUnderflow) ∧
  (∀ (s : State), s.memByte s.sp.toNat = 255 → TakesFault (exec (.pop (regByte 7)) s) s .stackUnderflow) ∧
  ChecksRegister .pop ∧
  (∀ map, OpcodesDistinct map → TwoByteForm map .pop .pop)

/-- R118: PUSH Ra then POP Rb, for a and b in 0 to 6 and a stack pointer of at least 1. -/
def Obligations.PushThenPopMovesTheRegister : Prop :=
  ∀ (a b : Fin 8) (s : State), a ≠ 7 → b ≠ 7 → 1 ≤ s.sp.toNat → ∃ t u,
    exec (.push (regByte a)) s = .next t ∧ exec (.pop (regByte b)) t = .next u ∧
    u.getReg b = s.getReg a ∧ u.sp = s.sp ∧ u.memByte (s.sp.toNat - 1) = s.getReg a ∧
    RegsKeptBut [b] s u ∧ MemKeptBut [s.sp.toNat - 1] s u ∧ u.fl = s.fl ∧ SystemKept s u ∧ u.out = s.out ∧
    u.pc = s.pc + 4

/-- R13, R115: only PUSH and CALL report a stack overflow and only POP and RET a stack underflow, in a core with no
error recorded: arithmetic on register 7 wraps without one. The errors' names are the spec's decision D14 (log 6), the
wrap of arithmetic on register 7 its D20 (log 18). -/
def Obligations.OnlyStackInstructionsReportStackErrors : Prop :=
  ∀ (i : Instr) (s t : State), s.err = none → exec i s = .next t →
    (t.err = some .stackOverflow → (i.mnemonic = .push ∨ i.mnemonic = .call) ∧ s.sp = 0) ∧
    (t.err = some .stackUnderflow → i.mnemonic = .pop ∨ i.mnemonic = .ret)

/-! Control transfer -/

/-- R125: CALL. The clause on register 7 is the spec's decision D12 (log 11), the fault at 254 its decision D13 (log
12). Not the document's but the spec's own decisions, unverified: that a fault changes nothing else (D11) and the
order of the checks (D10), both log 15; the fault of a fetch past address 255 (D5, log 2); the name of StackOverflow
(D14, log 6). -/
def Obligations.CallPushesTheReturnAddressAndJumps : Prop :=
  (∀ (r : Fin 8) (s : State), s.sp ≠ 0 → s.pc.toNat ≤ 253 → ∃ t, exec (.call (regByte r)) s = .next t ∧
    t.sp.toNat = s.sp.toNat - 1 ∧ (t.memByte (s.sp.toNat - 1)).toNat = s.pc.toNat + 2 ∧
    t.pc.toNat = (if r = 7 then s.sp.toNat - 1 else (s.getReg r).toNat) ∧
    RegsKeptBut [7] s t ∧ MemKeptBut [s.sp.toNat - 1] s t ∧ t.fl = s.fl ∧ SystemKept s t ∧ t.out = s.out) ∧
  (∀ (r : Fin 8) (s : State), s.sp = 0 → TakesFault (exec (.call (regByte r)) s) s .stackOverflow) ∧
  (∀ (r : Fin 8) (s : State), s.sp ≠ 0 → s.pc.toNat = 254 →
    TakesFault (exec (.call (regByte r)) s) s (.addressOutOfRange .mem 256)) ∧
  ChecksRegister .call ∧
  (∀ map, OpcodesDistinct map → TwoByteForm map .call .call)

/-- R126: RET. Not the document's but the spec's own decisions, unverified: that a fault changes nothing else (D11,
log 15); the fault of a fetch past address 255 (D5, log 2); the error's name (D14, log 6). -/
def Obligations.RetPopsTheProgramCounter : Prop :=
  (∀ s : State, s.sp ≠ 255 → ∃ t, exec .ret s = .next t ∧
    t.pc.toNat = (s.memByte s.sp.toNat).toNat ∧ t.sp.toNat = s.sp.toNat + 1 ∧
    RegsKeptBut [7] s t ∧ MemKeptBut [] s t ∧ t.fl = s.fl ∧ SystemKept s t ∧ t.out = s.out) ∧
  (∀ s : State, s.sp = 255 → TakesFault (exec .ret s) s .stackUnderflow) ∧
  (∀ map, OpcodesDistinct map → OneByteForm map .ret .ret)

/-- R127: JMP. Not the document's but the spec's own decisions, unverified: that a fault changes nothing else (D11,
log 15); the fault of a fetch past address 255 (D5, log 2). -/
def Obligations.JmpLoadsTheProgramCounter : Prop :=
  (∀ (r : Fin 8) (s : State), ∃ t, exec (.jmp (regByte r)) s = .next t ∧ t.pc.toNat = (s.getReg r).toNat ∧
    RegsKeptBut [] s t ∧ MemKeptBut [] s t ∧ t.fl = s.fl ∧ SystemKept s t ∧ t.out = s.out) ∧
  ChecksRegister .jmp ∧
  (∀ map, OpcodesDistinct map → TwoByteForm map .jmp .jmp)

/-- R128: JEQ jumps when flag bit 0 is 1, else advances by 2; a bad operand faults taken or not. Not the document's
but the spec's own decisions, unverified: that a fault changes nothing else (D11, log 15); the fault of a fetch past
address 255 (D5, log 2); that the operand is checked also where the jump is not taken (D18, log 15). -/
def Obligations.JeqJumpsWhenEqualIsSet : Prop :=
  (∀ (r : Fin 8) (s : State), ∃ t, exec (.jeq (regByte r)) s = .next t ∧
    (s.fl.getLsbD 0 = true → t.pc.toNat = (s.getReg r).toNat) ∧ (s.fl.getLsbD 0 = false → t.pc = s.pc + 2) ∧
    RegsKeptBut [] s t ∧ MemKeptBut [] s t ∧ t.fl = s.fl ∧ SystemKept s t ∧ t.out = s.out) ∧
  ChecksRegister .jeq ∧
  (∀ map, OpcodesDistinct map → TwoByteForm map .jeq .jeq)

/-- R129: JNE jumps when flag bit 0 is 0, else advances by 2; and of JEQ and JNE with one register exactly one is
taken, the other advancing by 2. Not the document's but the spec's own decisions, unverified: that a fault changes
nothing else (D11, log 15); the fault of a fetch past address 255 (D5, log 2); that the operand is checked also where
the jump is not taken (D18, log 15). -/
def Obligations.JneJumpsWhenEqualIsClear : Prop :=
  (∀ (r : Fin 8) (s : State), ∃ t, exec (.jne (regByte r)) s = .next t ∧
    (s.fl.getLsbD 0 = false → t.pc.toNat = (s.getReg r).toNat) ∧ (s.fl.getLsbD 0 = true → t.pc = s.pc + 2) ∧
    RegsKeptBut [] s t ∧ MemKeptBut [] s t ∧ t.fl = s.fl ∧ SystemKept s t ∧ t.out = s.out) ∧
  (∀ (r : Fin 8) (s : State), ∃ t u, exec (.jeq (regByte r)) s = .next t ∧ exec (.jne (regByte r)) s = .next u ∧
    ((t.pc = zext9 (s.getReg r) ∧ u.pc = s.pc + 2) ∨ (t.pc = s.pc + 2 ∧ u.pc = zext9 (s.getReg r)))) ∧
  ChecksRegister .jne ∧
  (∀ map, OpcodesDistinct map → TwoByteForm map .jne .jne)

/-- R130: when a subroutine leaves the stack pointer and the byte it addresses as the CALL left them, its RET comes back to
the instruction after the CALL, with the stack pointer from before it. -/
def Obligations.CallThenRetComesBack : Prop :=
  ∀ (r : Fin 8) (s t u : State), s.pc.toNat ≤ 253 → 1 ≤ s.sp.toNat → exec (.call (regByte r)) s = .next t →
    u.sp = t.sp → u.memByte u.sp.toNat = t.memByte t.sp.toNat →
    ∃ v, exec .ret u = .next v ∧ v.pc = s.pc + 2 ∧ v.sp = s.sp

/-- R82: a JMP whose register holds the JMP's own address runs for ever: after any number of steps the state is the same. -/
def Obligations.JumpToItselfRunsForever : Prop :=
  ∀ map, OpcodesDistinct map → ∀ (r : Fin 8) (s : State), s.status = .running → s.pc.toNat ≤ 254 →
    s.memByte s.pc.toNat = map .jmp → s.memByte (s.pc.toNat + 1) = regByte r →
    (s.getReg r).toNat = s.pc.toNat → ∀ k, runSteps map k s = .next s

/-! System and output -/

/-- R140: HLT makes the core Halted and changes nothing else; no step changes the state after it (said so that it does
not rest on how the model renders a step that is not taken, log 7), and the host leaves Halted only by Reset. Not the
document's but the spec's own decisions, unverified: that a fault changes nothing else (D11, log 15); the fault of a
fetch past address 255 (D5, log 2); that Load and Start leave a Halted core unchanged (D17, log 14). -/
def Obligations.HltHaltsAndKeepsEverythingElse : Prop :=
  (∀ s : State, exec .hlt s = .next { s with status := .halted }) ∧
  (∀ (map : Mnemonic → Byte) (s : State), ∃ t, exec .hlt s = .next t ∧
    (∀ u, stepWith map t = .next u → u = t) ∧ ∀ op, op ≠ .reset → applyHostOp op t = t) ∧
  (∀ map, OpcodesDistinct map → OneByteForm map .hlt .hlt)

/-- R141: PRN hands over one byte, the whole register. Not the document's but the spec's own decisions, unverified:
that a fault changes nothing else (D11, log 15); the fault of a fetch past address 255 (D5, log 2). -/
def Obligations.PrnEmitsTheRegister : Prop :=
  (∀ (r : Fin 8) (s : State), ∃ t, exec (.prn (regByte r)) s = .next t ∧ t.out = s.out ++ [s.getReg r] ∧
    t.pc = s.pc + 2 ∧ RegsKeptBut [] s t ∧ MemKeptBut [] s t ∧ t.fl = s.fl ∧ SystemKept s t) ∧
  ChecksRegister .prn ∧
  (∀ map, OpcodesDistinct map → TwoByteForm map .prn .prn)

/-- R20: no instruction but PRN changes OUT, and none removes from it. -/
def Obligations.OnlyPrnExtendsTheOutput : Prop :=
  ∀ (i : Instr) (s t : State), exec i s = .next t →
    (i.mnemonic ≠ .prn → t.out = s.out) ∧ (t.out = s.out ∨ ∃ v, t.out = s.out ++ [v])

/-- R20: no instruction reads OUT: a core with a longer history does the same and keeps the history in front. -/
def Obligations.NoInstructionReadsTheOutput : Prop :=
  ∀ (i : Instr) (s t : State) (earlier : List Byte), exec i s = .next t →
    exec i { s with out := earlier ++ s.out } = .next { t with out := earlier ++ t.out }

/-! Frames over all instructions -/

/-- R11, R13: an instruction writes no register but its destination and, for the four stack instructions, register 7. -/
def Obligations.RegistersNotNamedAreKept : Prop :=
  ∀ (i : Instr) (s t : State) (r : Fin 8), exec i s = .next t → ¬ MayWriteReg i r → t.getReg r = s.getReg r

/-- R33: only ST, PUSH and CALL store, one byte each, at the address computed for them. -/
def Obligations.MemoryOutsideTheStoredByteIsKept : Prop :=
  ∀ (i : Instr) (s t : State) (a : Nat), exec i s = .next t → storeAddress i s ≠ some a → t.memByte a = s.memByte a

/-- R12, R52, R60, R75, R79: for every instruction, the first register operand byte above 7 is the fault that is
taken, and nothing else happens, whatever the instruction would have done. The spec's own decisions, all log 15: the
order of the checks (D10), that a fault changes nothing else (D11), that an operand is checked also where the
instruction does not use it (D18). -/
def Obligations.FirstBadRegisterOperandIsReported : Prop :=
  ∀ (i : Instr) (s : State) (o : Byte), i.regOperands.find? (fun o => 7 < o.toNat) = some o →
    TakesFault (exec i s) s (.addressOutOfRange .reg (zext9 o))

/-- R32, R173: past the fetch, only CALL can report a memory address out of range, and only its return address; a data
access never does. That CALL reports its return address is the spec's decision D13 (log 12). -/
def Obligations.OnlyCallReportsAMemoryAddressPastTheFetch : Prop :=
  ∀ (i : Instr) (s t : State) (v : Addr), s.err = none → exec i s = .next t →
    t.err = some (.addressOutOfRange .mem v) → i.mnemonic = .call ∧ v = s.pc + 2 ∧ 255 < v.toNat

/-! Reset, the host and the invariant -/

/-- R23, R200: reset, from any state. The values of registers 0 to 6, of the flags, of STATUS and of ERR are the spec's
decisions D3, D4, D15 and D9 (logs 3, 5, 6). -/
def Obligations.ResetLeavesTheResetValues : Prop :=
  ∀ s : State, (∀ a, (hostReset s).memByte a = 0x00) ∧ (hostReset s).getReg 7 = 0xF4 ∧
    (∀ r, r ≠ 7 → (hostReset s).getReg r = 0x00) ∧ (hostReset s).pc = 0 ∧ (hostReset s).fl = 0x00 ∧
    (hostReset s).status = .idle ∧ (hostReset s).err = none ∧ (hostReset s).out = [] ∧ hostReset s = State.reset

/-- R160, R161 (the spec's decision D17): in Idle, Load writes the image from address 0 and nothing else; an image of more
than 256 bytes writes nothing and faults the core; outside Idle it is ignored. -/
def Obligations.LoadDepositsTheImage : Prop :=
  ∀ (image : List Byte) (s : State),
    (s.status = .idle → image.length ≤ 256 →
      (∀ a (h : a < image.length), (hostLoad image s).memByte a = image[a]) ∧
      (∀ a, image.length ≤ a → (hostLoad image s).memByte a = s.memByte a) ∧
      hostLoad image s = { s with mem := (hostLoad image s).mem }) ∧
    (s.status = .idle → 256 < image.length →
      hostLoad image s = { s with status := .faulted, err := some (.addressOutOfRange .mem 256) }) ∧
    (s.status ≠ .idle → hostLoad image s = s)

/-- R164, R202 (resting on the decisions D3, D4, D9 and D15 like R23): the launch state of an image of at most 256 bytes. -/
def Obligations.BootLeavesTheLaunchState : Prop :=
  ∀ image : List Byte, image.length ≤ 256 →
    (∀ a (h : a < image.length), (boot image).memByte a = image[a]) ∧
    (∀ a, image.length ≤ a → (boot image).memByte a = 0x00) ∧
    (boot image).getReg 7 = 0xF4 ∧ (∀ r, r ≠ 7 → (boot image).getReg r = 0x00) ∧ (boot image).pc = 0 ∧
    (boot image).fl = 0x00 ∧ (boot image).status = .running ∧ (boot image).err = none ∧ (boot image).out = []

/-- R160, R162: Start sets Running from Idle and changes nothing else, and is ignored in every other STATUS. That it
is ignored outside Idle is the spec's decision D17 (log 14). -/
def Obligations.StartActsOnlyInIdle : Prop :=
  ∀ s : State, (s.status = .idle → hostStart s = { s with status := .running }) ∧
    (s.status ≠ .idle → hostStart s = s)

/-- R18, R19, R163, R179: a core that has ended stays as it is under every step and every dealing of the host but
Reset, and the host can observe all of it. Two clauses are choices: that a step answers the same state is the model's
(log 7), that Load and Start are ignored here is the spec's decision D17 (log 14). -/
def Obligations.EndedCoreChangesOnlyByReset : Prop :=
  ∀ (map : Mnemonic → Byte) (s : State), s.Ended → stepWith map s = .next s ∧
    (∀ op, op ≠ .reset → applyHostOp op s = s) ∧ observe s = some s

/-- R15, R16, R19, R23: the reset state meets the invariant, whatever RESET_GPR is and for each of the four values RESET_FL
may have. -/
def Obligations.ResetMeetsTheInvariant : Prop :=
  ∀ (map : Mnemonic → Byte) (gpr fl : Byte), fl = 0x00 ∨ fl = 0x01 ∨ fl = 0x02 ∨ fl = 0x04 →
    Inv map (State.resetWith gpr fl)

/-- R15, R16, R18, R19, R172, R173, R174: every step from a state that meets the invariant answers a state that meets it. -/
def Obligations.EveryStepKeepsTheInvariant : Prop :=
  ∀ (map : Mnemonic → Byte) (s t : State), Inv map s → stepWith map s = .next t → Inv map t

/-- R19, R160 to R162, R200: every dealing of the host keeps the invariant. What Load and Start do outside Idle and on
a long image is the spec's decision D17 (log 14). -/
def Obligations.HostOperationsKeepTheInvariant : Prop :=
  ∀ (map : Mnemonic → Byte) (op : HostOp) (s : State), Inv map s → Inv map (applyHostOp op s)

/-- R15, R16, R19, R173, R174: every state a core can come to, by any programs the host loads and any steps, meets the
invariant; so `pc` is at most 256, `fl` is one of 0, 1, 2, 4, ERR is not None exactly when STATUS is Faulted, and a memory
address in ERR is exactly 256. -/
def Obligations.ReachableStatesMeetTheInvariant : Prop :=
  ∀ s : State, Reachable s → Inv Config.opcodeMap s

/-- R19: ERR is written at most once between two resets: once recorded, it is kept by every step and every dealing of
the host but Reset. That a step of a Faulted core answers the same state is the model's choice (log 7), that Load and
Start are ignored there the spec's decision D17 (log 14). -/
def Obligations.ErrIsWrittenAtMostOnceBetweenResets : Prop :=
  ∀ (map : Mnemonic → Byte) (s : State) (e : ErrRecord), Inv map s → s.err = some e →
    (∀ t, stepWith map s = .next t → t.err = some e) ∧
    (∀ op, op ≠ .reset → (applyHostOp op s).err = some e)
end

