-- ==== Sys2Proof/Laws/Config.lean ====
section
/-! SUPPORT. The parameters of R3 as numbers: each word type has the width its parameter names, and the length of each
instruction is that of the table of R56 (spec/00_scope.md R3; spec/30_encoding.md R50, R56). -/

namespace Sys2Proof

theorem byte_width : Byte = BitVec Config.byteBits := rfl
theorem register_width : Byte = BitVec Config.xlen := rfl
theorem dataAddr_width : DataAddr = BitVec Config.addrBits := rfl
theorem addr_width : Addr = BitVec Config.pcBits := rfl
theorem flagBits_width : FlagBits = BitVec Config.flBits := rfl
theorem regIndex_bound : RegIndex = Fin Config.nregs := rfl

/-- MEM_SIZE as a number. -/
theorem memSize_eq : Config.memSize = 256 := rfl

/-- A data address reaches exactly the bytes of memory (R10). -/
theorem memSize_eq_two_pow_addrBits : Config.memSize = 2 ^ Config.addrBits := rfl

/-- The flag bits lie inside the flags register (R16). -/
theorem flag_bits_lt_flBits :
    Config.flLBit < Config.flBits ∧ Config.flGBit < Config.flBits ∧ Config.flEBit < Config.flBits := by decide

@[simp] theorem lengthOf_ldi : lengthOf .ldi = 3 := rfl
@[simp] theorem lengthOf_prn : lengthOf .prn = 2 := rfl
@[simp] theorem lengthOf_hlt : lengthOf .hlt = 1 := rfl
@[simp] theorem lengthOf_add : lengthOf .add = 3 := rfl
@[simp] theorem lengthOf_dec : lengthOf .dec = 3 := rfl
@[simp] theorem lengthOf_mul : lengthOf .mul = 3 := rfl
@[simp] theorem lengthOf_push : lengthOf .push = 2 := rfl
@[simp] theorem lengthOf_pop : lengthOf .pop = 2 := rfl
@[simp] theorem lengthOf_call : lengthOf .call = 2 := rfl
@[simp] theorem lengthOf_ret : lengthOf .ret = 1 := rfl
@[simp] theorem lengthOf_st : lengthOf .st = 3 := rfl
@[simp] theorem lengthOf_cmp : lengthOf .cmp = 3 := rfl
@[simp] theorem lengthOf_jmp : lengthOf .jmp = 2 := rfl
@[simp] theorem lengthOf_jeq : lengthOf .jeq = 2 := rfl
@[simp] theorem lengthOf_jne : lengthOf .jne = 2 := rfl

end Sys2Proof
end

