-- ==== Sys2Proof/Laws/Decode.lean ====
section
/-! SUPPORT. The dispatcher's laws, and what reading an instruction can answer (spec/30_encoding.md R56 to R58;
spec/40_execution_loop.md R72 to R74). -/

namespace Sys2Proof

theorem mem_allMnemonics (m : Mnemonic) : m ∈ allMnemonics := by cases m <;> decide

/-- The default map gives each instruction a byte of its own (R57). -/
theorem opcodeMap_distinct : Machine.OpcodesDistinct Config.opcodeMap := by
  intro m n h
  cases m <;> cases n <;> first | rfl | exact absurd h (by decide)

/-- The named alternative map, DEC at 0xA1, gives each instruction a byte of its own (R57). -/
theorem opcodeMapDecAlt_distinct : Machine.OpcodesDistinct Config.opcodeMapDecAlt := by
  intro m n h
  cases m <;> cases n <;> first | rfl | exact absurd h (by decide)

/-- The dispatcher answers only a mnemonic whose opcode is the byte. -/
theorem dispatchWith_some {map : Mnemonic → Byte} {op : Byte} {m : Mnemonic} (h : dispatchWith map op = some m) :
    map m = op := by
  simpa using List.find?_some h

/-- The dispatcher answers every opcode with its mnemonic. -/
theorem dispatchWith_opcode {map : Mnemonic → Byte} (hmap : Machine.OpcodesDistinct map) (m : Mnemonic) :
    dispatchWith map (map m) = some m := by
  cases h : dispatchWith map (map m) with
  | none => simpa using List.find?_eq_none.mp h m (mem_allMnemonics m)
  | some n => rw [hmap n m (dispatchWith_some h)]

/-- The dispatcher answers nothing exactly for a byte that is no opcode (R58). -/
theorem dispatchWith_none {map : Mnemonic → Byte} {op : Byte} :
    dispatchWith map op = none ↔ ∀ m, map m ≠ op := by
  simp [dispatchWith, List.find?_eq_none, mem_allMnemonics]

@[simp] theorem assemble_mnemonic (m : Mnemonic) (o1 o2 : Byte) : (assemble m o1 o2).mnemonic = m := by
  cases m <;> rfl

/-- Everything reading an instruction can answer when it answers one: the opcode at place 0, its mnemonic, and the operand
bytes the format has, at places 1 and 2. -/
theorem readInstr_ok {ε : Type} {map : Mnemonic → Byte} {invalid : Byte → ε} {read : Nat → Except ε Byte} {i : Instr}
    (h : readInstr map invalid read = .ok i) :
    ∃ op m, read 0 = .ok op ∧ dispatchWith map op = some m ∧
      ((nopsOf m = 0 ∧ i = assemble m 0 0) ∨
       (nopsOf m = 1 ∧ ∃ o1, read 1 = .ok o1 ∧ i = assemble m o1 0) ∨
       (nopsOf m = 2 ∧ ∃ o1 o2, read 1 = .ok o1 ∧ read 2 = .ok o2 ∧ i = assemble m o1 o2)) := by
  unfold readInstr at h
  split at h
  · simp at h
  · rename_i op h0
    split at h
    · simp at h
    · rename_i m hm
      refine ⟨op, m, h0, hm, ?_⟩
      split at h
      · rename_i hn
        exact .inl ⟨hn, by simpa using h.symm⟩
      · rename_i hn
        split at h
        · simp at h
        · rename_i o1 h1
          exact .inr (.inl ⟨hn, o1, h1, by simpa using h.symm⟩)
      · rename_i hn0 hn1
        split at h
        · simp at h
        · rename_i o1 h1
          split at h
          · simp at h
          · rename_i o2 h2
            refine .inr (.inr ⟨?_, o1, o2, h1, h2, by simpa using h.symm⟩)
            cases m <;> first | rfl | exact absurd rfl hn0 | exact absurd rfl hn1

/-- Everything reading an instruction can answer when it fails: an opcode that dispatches to nothing, or the failure of the
first byte it needs and cannot read. -/
theorem readInstr_error {ε : Type} {map : Mnemonic → Byte} {invalid : Byte → ε} {read : Nat → Except ε Byte} {e : ε}
    (h : readInstr map invalid read = .error e) :
    read 0 = .error e ∨
    ∃ op, read 0 = .ok op ∧
      ((dispatchWith map op = none ∧ e = invalid op) ∨
       ∃ m, dispatchWith map op = some m ∧
         ((1 ≤ nopsOf m ∧ read 1 = .error e) ∨ (nopsOf m = 2 ∧ (∃ o1, read 1 = .ok o1) ∧ read 2 = .error e))) := by
  unfold readInstr at h
  split at h
  · rename_i e' h0
    simp only [Except.error.injEq] at h
    exact .inl (h ▸ h0)
  · rename_i op h0
    refine .inr ⟨op, h0, ?_⟩
    split at h
    · rename_i hm
      exact .inl ⟨hm, by simpa using h.symm⟩
    · rename_i m hm
      refine .inr ⟨m, hm, ?_⟩
      split at h
      · simp at h
      · rename_i hn
        split at h
        · rename_i e' h1
          simp only [Except.error.injEq] at h
          exact .inl ⟨by omega, h ▸ h1⟩
        · simp at h
      · rename_i hn0 hn1
        have hn : nopsOf m = 2 := by cases m <;> first | rfl | exact absurd rfl hn0 | exact absurd rfl hn1
        split at h
        · rename_i e' h1
          simp only [Except.error.injEq] at h
          exact .inl ⟨by omega, h ▸ h1⟩
        · rename_i o1 h1
          split at h
          · rename_i e' h2
            simp only [Except.error.injEq] at h
            exact .inr ⟨hn, ⟨o1, h1⟩, h ▸ h2⟩
          · simp at h

end Sys2Proof
end

