-- ==== Sys2Proof/Laws/Memory.lean ====
section
/-! SUPPORT. The laws of memory: a read after a write, and that every memory operation keeps the canonical form
(spec/20_memory.md R31, R32). -/

namespace Sys2Proof.Machine

@[simp] theorem Memory.get_nil (a : Nat) : Memory.get [] a = 0 := rfl

theorem Memory.get_cons (c : Host.Cell) (m : Memory) (a : Nat) :
    Memory.get (c :: m) a = if c.1 = a then c.2 else Memory.get m a := rfl

theorem Memory.get_erase_self (m : Memory) (a : Nat) : (Memory.erase m a).get a = 0 := by
  induction m with
  | nil => rfl
  | cons c m ih =>
    unfold Memory.erase at ih ⊢
    by_cases h : c.1 = a
    · simp [h, ih]
    · simp [h, Memory.get_cons, ih]

theorem Memory.get_erase_ne (m : Memory) {a b : Nat} (h : b ≠ a) : (Memory.erase m a).get b = m.get b := by
  induction m with
  | nil => rfl
  | cons c m ih =>
    unfold Memory.erase at ih ⊢
    by_cases hc : c.1 = a
    · have : ¬ a = b := fun e => h e.symm
      simp [hc, Memory.get_cons, ih, this]
    · simp [hc, Memory.get_cons, ih]

theorem Memory.get_insert_ne (m : Memory) {a b : Nat} (v : Byte) (h : b ≠ a) : (Memory.insert m a v).get b = m.get b := by
  have hn : ¬ a = b := fun e => h e.symm
  induction m with
  | nil => simp [Memory.insert, Memory.get_cons, hn]
  | cons c m ih =>
    unfold Memory.insert
    split
    · simp [Memory.get_cons, hn]
    · simp [Memory.get_cons, ih]

theorem Memory.get_insert_self (m : Memory) (a : Nat) (v : Byte) (h : ∀ c ∈ m, c.1 ≠ a) :
    (Memory.insert m a v).get a = v := by
  induction m with
  | nil => simp [Memory.insert, Memory.get_cons]
  | cons c m ih =>
    unfold Memory.insert
    split
    · simp [Memory.get_cons]
    · have hc : c.1 ≠ a := h c (by simp)
      simp [Memory.get_cons, hc, ih fun d hd => h d (by simp [hd])]

theorem Memory.mem_erase {m : Memory} {a : Nat} {c : Host.Cell} : c ∈ Memory.erase m a ↔ c ∈ m ∧ c.1 ≠ a := by
  simp [Memory.erase]

/-- A read after a write to the same address gives the byte written. -/
@[simp] theorem Memory.get_set_self (m : Memory) (a : Nat) (v : Byte) : (Memory.set m a v).get a = v := by
  unfold Memory.set
  split
  · rename_i h
    rw [Memory.get_erase_self, h]
  · exact Memory.get_insert_self _ _ _ fun c hc => (Memory.mem_erase.mp hc).2

/-- A write leaves every other address alone. -/
theorem Memory.get_set_ne (m : Memory) {a b : Nat} (v : Byte) (h : b ≠ a) : (Memory.set m a v).get b = m.get b := by
  unfold Memory.set
  split
  · exact Memory.get_erase_ne m h
  · rw [Memory.get_insert_ne _ _ h, Memory.get_erase_ne m h]

theorem Memory.get_set (m : Memory) (a b : Nat) (v : Byte) :
    (Memory.set m a v).get b = if b = a then v else m.get b := by
  split
  · rename_i h
    rw [h, Memory.get_set_self]
  · rename_i h
    exact Memory.get_set_ne m v h

theorem Memory.nil_wf : Memory.wf [] := by simp [Memory.wf]

theorem Memory.mem_insert {m : Memory} {a : Nat} {v : Byte} {c : Host.Cell} :
    c ∈ Memory.insert m a v ↔ c = (a, v) ∨ c ∈ m := by
  induction m with
  | nil => simp [Memory.insert]
  | cons d m ih =>
    unfold Memory.insert
    split
    · simp
    · simp only [List.mem_cons, ih]
      tauto

theorem Memory.insert_pairwise {m : Memory} {a : Nat} (v : Byte) (hm : m.Pairwise fun c d => c.1 < d.1)
    (h : ∀ c ∈ m, c.1 ≠ a) : (Memory.insert m a v).Pairwise fun c d => c.1 < d.1 := by
  induction m with
  | nil => simp [Memory.insert]
  | cons d m ih =>
    obtain ⟨hd, hm'⟩ := List.pairwise_cons.mp hm
    unfold Memory.insert
    split
    · rename_i hlt
      refine List.pairwise_cons.mpr ⟨fun c hc => ?_, hm⟩
      rcases List.mem_cons.mp hc with rfl | hc
      · exact hlt
      · exact hlt.trans (hd c hc)
    · rename_i hlt
      have hne : d.1 ≠ a := h d (by simp)
      refine List.pairwise_cons.mpr ⟨fun c hc => ?_, ih hm' fun c hc => h c (by simp [hc])⟩
      rcases Memory.mem_insert.mp hc with rfl | hc
      · show d.1 < a
        omega
      · exact hd c hc

/-- Erasing a cell keeps the canonical form. -/
theorem Memory.erase_wf {m : Memory} (a : Nat) (hm : m.wf) : (m.erase a).wf :=
  ⟨hm.1.filter _, fun c hc => hm.2 c (Memory.mem_erase.mp hc).1⟩

/-- Putting a nonzero cell at a free address of memory keeps the canonical form. -/
theorem Memory.insert_wf {m : Memory} {a : Nat} {v : Byte} (hm : m.wf) (hfree : ∀ c ∈ m, c.1 ≠ a)
    (ha : a < Config.memSize) (hv : v ≠ 0) : (m.insert a v).wf := by
  refine ⟨Memory.insert_pairwise v hm.1 hfree, fun c hc => ?_⟩
  rcases Memory.mem_insert.mp hc with rfl | hc
  · exact ⟨ha, hv⟩
  · exact hm.2 c hc

/-- Writing a byte keeps the canonical form. -/
theorem Memory.set_wf {m : Memory} {a : Nat} (v : Byte) (hm : m.wf) (ha : a < Config.memSize) : (m.set a v).wf := by
  unfold Memory.set
  split
  · exact Memory.erase_wf a hm
  · rename_i hv
    exact Memory.insert_wf (Memory.erase_wf a hm) (fun c hc => (Memory.mem_erase.mp hc).2) ha hv

/-- Writing a run of bytes keeps the canonical form. -/
theorem Memory.writeBytes_wf {m : Memory} (a : Nat) (bs : List Byte) (hm : m.wf) : (m.writeBytes a bs).wf := by
  induction bs generalizing m a with
  | nil => exact hm
  | cons b bs ih =>
    unfold Memory.writeBytes
    split
    · rename_i ha
      exact ih (a + 1) (Memory.set_wf b hm ha)
    · exact hm

/-- What a run of bytes leaves at each address of memory. -/
theorem Memory.get_writeBytes (m : Memory) (a : Nat) (bs : List Byte) (h : a + bs.length ≤ Config.memSize) (k : Nat) :
    (m.writeBytes a bs).get k = if a ≤ k then bs.getD (k - a) (m.get k) else m.get k := by
  induction bs generalizing m a with
  | nil => simp [Memory.writeBytes]
  | cons b bs ih =>
    simp only [List.length_cons] at h
    have ha : a < Config.memSize := by omega
    rw [Memory.writeBytes, if_pos ha, ih _ _ (by omega), Memory.get_set]
    rcases Nat.lt_trichotomy k a with hlt | rfl | hgt
    · have h1 : ¬ a + 1 ≤ k := by omega
      have h2 : ¬ a ≤ k := by omega
      have h3 : k ≠ a := by omega
      simp [h1, h2, h3]
    · simp
    · obtain ⟨d, rfl⟩ : ∃ d, k = a + 1 + d := ⟨k - (a + 1), by omega⟩
      have h1 : a + 1 ≤ a + 1 + d := by omega
      have h2 : a ≤ a + 1 + d := by omega
      have h3 : a + 1 + d ≠ a := by omega
      have h4 : a + 1 + d - (a + 1) = d := by omega
      have h5 : a + 1 + d - a = d + 1 := by omega
      rw [if_pos h1, if_pos h2, if_neg h3, h4, h5, List.getD_cons_succ]

end Sys2Proof.Machine
end

