-- ==== Sys2Proof/Laws/State.lean ====
section
/-! SUPPORT. One lemma per field per update of the state, and what a register, a memory byte and the flags read after each
update. -/

namespace Sys2Proof.Machine

@[simp] theorem State.setReg_x (s : State) (r : RegIndex) (v : Byte) : (s.setReg r v).x = s.x.set r.val v r.isLt := rfl
@[simp] theorem State.setReg_pc (s : State) (r : RegIndex) (v : Byte) : (s.setReg r v).pc = s.pc := rfl
@[simp] theorem State.setReg_fl (s : State) (r : RegIndex) (v : Byte) : (s.setReg r v).fl = s.fl := rfl
@[simp] theorem State.setReg_mem (s : State) (r : RegIndex) (v : Byte) : (s.setReg r v).mem = s.mem := rfl
@[simp] theorem State.setReg_status (s : State) (r : RegIndex) (v : Byte) : (s.setReg r v).status = s.status := rfl
@[simp] theorem State.setReg_err (s : State) (r : RegIndex) (v : Byte) : (s.setReg r v).err = s.err := rfl
@[simp] theorem State.setReg_out (s : State) (r : RegIndex) (v : Byte) : (s.setReg r v).out = s.out := rfl

@[simp] theorem State.setSp_x (s : State) (v : Byte) : (s.setSp v).x = s.x.set Config.spIndex.val v Config.spIndex.isLt := rfl
@[simp] theorem State.setSp_pc (s : State) (v : Byte) : (s.setSp v).pc = s.pc := rfl
@[simp] theorem State.setSp_fl (s : State) (v : Byte) : (s.setSp v).fl = s.fl := rfl
@[simp] theorem State.setSp_mem (s : State) (v : Byte) : (s.setSp v).mem = s.mem := rfl
@[simp] theorem State.setSp_status (s : State) (v : Byte) : (s.setSp v).status = s.status := rfl
@[simp] theorem State.setSp_err (s : State) (v : Byte) : (s.setSp v).err = s.err := rfl
@[simp] theorem State.setSp_out (s : State) (v : Byte) : (s.setSp v).out = s.out := rfl

@[simp] theorem State.advancePc_x (s : State) (n : Nat) : (s.advancePc n).x = s.x := rfl
@[simp] theorem State.advancePc_pc (s : State) (n : Nat) : (s.advancePc n).pc = s.pc + BitVec.ofNat _ n := rfl
@[simp] theorem State.advancePc_fl (s : State) (n : Nat) : (s.advancePc n).fl = s.fl := rfl
@[simp] theorem State.advancePc_mem (s : State) (n : Nat) : (s.advancePc n).mem = s.mem := rfl
@[simp] theorem State.advancePc_status (s : State) (n : Nat) : (s.advancePc n).status = s.status := rfl
@[simp] theorem State.advancePc_err (s : State) (n : Nat) : (s.advancePc n).err = s.err := rfl
@[simp] theorem State.advancePc_out (s : State) (n : Nat) : (s.advancePc n).out = s.out := rfl

@[simp] theorem State.loadPc_x (s : State) (v : Byte) : (s.loadPc v).x = s.x := rfl
@[simp] theorem State.loadPc_pc (s : State) (v : Byte) : (s.loadPc v).pc = zext9 v := rfl
@[simp] theorem State.loadPc_fl (s : State) (v : Byte) : (s.loadPc v).fl = s.fl := rfl
@[simp] theorem State.loadPc_mem (s : State) (v : Byte) : (s.loadPc v).mem = s.mem := rfl
@[simp] theorem State.loadPc_status (s : State) (v : Byte) : (s.loadPc v).status = s.status := rfl
@[simp] theorem State.loadPc_err (s : State) (v : Byte) : (s.loadPc v).err = s.err := rfl
@[simp] theorem State.loadPc_out (s : State) (v : Byte) : (s.loadPc v).out = s.out := rfl

@[simp] theorem State.setFl_x (s : State) (v : FlagBits) : (s.setFl v).x = s.x := rfl
@[simp] theorem State.setFl_pc (s : State) (v : FlagBits) : (s.setFl v).pc = s.pc := rfl
@[simp] theorem State.setFl_fl (s : State) (v : FlagBits) : (s.setFl v).fl = v := rfl
@[simp] theorem State.setFl_mem (s : State) (v : FlagBits) : (s.setFl v).mem = s.mem := rfl
@[simp] theorem State.setFl_status (s : State) (v : FlagBits) : (s.setFl v).status = s.status := rfl
@[simp] theorem State.setFl_err (s : State) (v : FlagBits) : (s.setFl v).err = s.err := rfl
@[simp] theorem State.setFl_out (s : State) (v : FlagBits) : (s.setFl v).out = s.out := rfl

@[simp] theorem State.setStatus_x (s : State) (v : Status) : (s.setStatus v).x = s.x := rfl
@[simp] theorem State.setStatus_pc (s : State) (v : Status) : (s.setStatus v).pc = s.pc := rfl
@[simp] theorem State.setStatus_fl (s : State) (v : Status) : (s.setStatus v).fl = s.fl := rfl
@[simp] theorem State.setStatus_mem (s : State) (v : Status) : (s.setStatus v).mem = s.mem := rfl
@[simp] theorem State.setStatus_status (s : State) (v : Status) : (s.setStatus v).status = v := rfl
@[simp] theorem State.setStatus_err (s : State) (v : Status) : (s.setStatus v).err = s.err := rfl
@[simp] theorem State.setStatus_out (s : State) (v : Status) : (s.setStatus v).out = s.out := rfl

@[simp] theorem State.emit_x (s : State) (v : Byte) : (s.emit v).x = s.x := rfl
@[simp] theorem State.emit_pc (s : State) (v : Byte) : (s.emit v).pc = s.pc := rfl
@[simp] theorem State.emit_fl (s : State) (v : Byte) : (s.emit v).fl = s.fl := rfl
@[simp] theorem State.emit_mem (s : State) (v : Byte) : (s.emit v).mem = s.mem := rfl
@[simp] theorem State.emit_status (s : State) (v : Byte) : (s.emit v).status = s.status := rfl
@[simp] theorem State.emit_err (s : State) (v : Byte) : (s.emit v).err = s.err := rfl
@[simp] theorem State.emit_out (s : State) (v : Byte) : (s.emit v).out = s.out ++ [v] := rfl

@[simp] theorem State.raised_x (s : State) (e : ErrRecord) : (s.raised e).x = s.x := rfl
@[simp] theorem State.raised_pc (s : State) (e : ErrRecord) : (s.raised e).pc = s.pc := rfl
@[simp] theorem State.raised_fl (s : State) (e : ErrRecord) : (s.raised e).fl = s.fl := rfl
@[simp] theorem State.raised_mem (s : State) (e : ErrRecord) : (s.raised e).mem = s.mem := rfl
@[simp] theorem State.raised_status (s : State) (e : ErrRecord) : (s.raised e).status = .faulted := rfl
@[simp] theorem State.raised_err (s : State) (e : ErrRecord) : (s.raised e).err = some e := rfl
@[simp] theorem State.raised_out (s : State) (e : ErrRecord) : (s.raised e).out = s.out := rfl

@[simp] theorem State.setReg_memByte (s : State) (r : RegIndex) (v : Byte) (k : Nat) : (s.setReg r v).memByte k = s.memByte k := rfl
@[simp] theorem State.setSp_memByte (s : State) (v : Byte) (k : Nat) : (s.setSp v).memByte k = s.memByte k := rfl
@[simp] theorem State.advancePc_memByte (s : State) (n : Nat) (k : Nat) : (s.advancePc n).memByte k = s.memByte k := rfl
@[simp] theorem State.loadPc_memByte (s : State) (v : Byte) (k : Nat) : (s.loadPc v).memByte k = s.memByte k := rfl
@[simp] theorem State.setFl_memByte (s : State) (v : FlagBits) (k : Nat) : (s.setFl v).memByte k = s.memByte k := rfl
@[simp] theorem State.setStatus_memByte (s : State) (v : Status) (k : Nat) : (s.setStatus v).memByte k = s.memByte k := rfl
@[simp] theorem State.emit_memByte (s : State) (v : Byte) (k : Nat) : (s.emit v).memByte k = s.memByte k := rfl
@[simp] theorem State.raised_memByte (s : State) (e : ErrRecord) (k : Nat) : (s.raised e).memByte k = s.memByte k := rfl

@[simp] theorem State.advancePc_getReg (s : State) (n : Nat) (k : RegIndex) : (s.advancePc n).getReg k = s.getReg k := rfl
@[simp] theorem State.advancePc_sp (s : State) (n : Nat) : (s.advancePc n).sp = s.sp := rfl
@[simp] theorem State.loadPc_getReg (s : State) (v : Byte) (k : RegIndex) : (s.loadPc v).getReg k = s.getReg k := rfl
@[simp] theorem State.loadPc_sp (s : State) (v : Byte) : (s.loadPc v).sp = s.sp := rfl
@[simp] theorem State.setFl_getReg (s : State) (v : FlagBits) (k : RegIndex) : (s.setFl v).getReg k = s.getReg k := rfl
@[simp] theorem State.setFl_sp (s : State) (v : FlagBits) : (s.setFl v).sp = s.sp := rfl
@[simp] theorem State.setStatus_getReg (s : State) (v : Status) (k : RegIndex) : (s.setStatus v).getReg k = s.getReg k := rfl
@[simp] theorem State.setStatus_sp (s : State) (v : Status) : (s.setStatus v).sp = s.sp := rfl
@[simp] theorem State.emit_getReg (s : State) (v : Byte) (k : RegIndex) : (s.emit v).getReg k = s.getReg k := rfl
@[simp] theorem State.emit_sp (s : State) (v : Byte) : (s.emit v).sp = s.sp := rfl
@[simp] theorem State.raised_getReg (s : State) (e : ErrRecord) (k : RegIndex) : (s.raised e).getReg k = s.getReg k := rfl
@[simp] theorem State.raised_sp (s : State) (e : ErrRecord) : (s.raised e).sp = s.sp := rfl

theorem State.getReg_setReg (s : State) (r k : RegIndex) (v : Byte) :
    (s.setReg r v).getReg k = if k = r then v else s.getReg k := by
  rcases r with ⟨r, hr⟩
  rcases k with ⟨k, hk⟩
  simp only [State.getReg, State.setReg, Fin.mk.injEq, Vector.getElem_set]
  by_cases h : r = k
  · simp [h]
  · simp [h, Ne.symm h]

@[simp] theorem State.getReg_setReg_self (s : State) (r : RegIndex) (v : Byte) : (s.setReg r v).getReg r = v := by
  simp [State.getReg_setReg]

theorem State.getReg_setReg_ne (s : State) {r k : RegIndex} (v : Byte) (h : k ≠ r) :
    (s.setReg r v).getReg k = s.getReg k := by
  simp [State.getReg_setReg, h]

/-- The stack pointer is register 7 (R13), in either spelling. -/
theorem spIndex_eq : Config.spIndex = 7 := rfl

theorem State.getReg_setSp (s : State) (k : RegIndex) (v : Byte) :
    (s.setSp v).getReg k = if k = Config.spIndex then v else s.getReg k := s.getReg_setReg _ _ _

@[simp] theorem State.setSp_sp (s : State) (v : Byte) : (s.setSp v).sp = v := s.getReg_setReg_self _ _

theorem State.getReg_spIndex (s : State) : s.getReg Config.spIndex = s.sp := rfl

end Sys2Proof.Machine
end

