-- ==== Sys2Proof/Laws/Ops.lean ====
section
/-! SUPPORT. For each shared operation, what it can do: the value it answers, or the fault it raises; and for each shape of
meaning, every next state it can answer. -/

namespace Sys2Proof.Machine

/-! Widths -/

@[simp] theorem zext9_toNat (v : Byte) : (zext9 v).toNat = v.toNat := by
  have := v.isLt
  simp only [zext9, BitVec.toNat_setWidth]
  omega

theorem trunc8_toNat_cast (n : Nat) : (trunc8 (n : Int)).toNat = n % 256 := by
  simp [trunc8]

@[simp] theorem regByte_toNat (r : RegIndex) : (regByte r).toNat = r.val := by
  have := r.isLt
  simp only [regByte, BitVec.toNat_ofNat]
  omega

/-! Faults -/

@[simp] theorem orRaise_ok {α : Type} (s : State) (a : α) (k : α → Result) : orRaise s (.ok a) k = k a := rfl

@[simp] theorem orRaise_error {α : Type} (s : State) (e : ErrRecord) (k : α → Result) :
    orRaise s (.error e) k = .next (s.raised e) := rfl

/-- Everything a check inside a step can lead to: the fault, or what follows it. -/
theorem orRaise_next {α : Type} {s t : State} {v : Except ErrRecord α} {k : α → Result}
    (h : orRaise s v k = .next t) : (∃ e, v = .error e ∧ t = s.raised e) ∨ ∃ a, v = .ok a ∧ k a = .next t := by
  cases v with
  | error e => exact .inl ⟨e, rfl, by simpa using h.symm⟩
  | ok a => exact .inr ⟨a, rfl, h⟩

/-! Memory -/

theorem memRead_inRange (s : State) {addr : Addr} (h : addr.toNat ≤ 255) :
    memRead s addr = .ok (s.memByte addr.toNat) := by
  exact if_neg (by rw [memSize_eq]; omega)

theorem memRead_outOfRange (s : State) {addr : Addr} (h : 255 < addr.toNat) :
    memRead s addr = .error (.addressOutOfRange .mem addr) := by
  exact if_pos (by rw [memSize_eq]; omega)

/-- A data address is a byte, so a read at it is never out of range (R32). -/
@[simp] theorem memRead_zext9 (s : State) (v : Byte) : memRead s (zext9 v) = .ok (s.memByte v.toNat) := by
  have hv := v.isLt
  rw [memRead_inRange s (by rw [zext9_toNat]; omega), zext9_toNat]

/-- The state after a store of one byte. -/
def State.stored (s : State) (a : Nat) (v : Byte) : State := { s with mem := s.mem.set a v }

@[simp] theorem State.stored_x (s : State) (a : Nat) (v : Byte) : (s.stored a v).x = s.x := rfl
@[simp] theorem State.stored_pc (s : State) (a : Nat) (v : Byte) : (s.stored a v).pc = s.pc := rfl
@[simp] theorem State.stored_fl (s : State) (a : Nat) (v : Byte) : (s.stored a v).fl = s.fl := rfl
@[simp] theorem State.stored_mem (s : State) (a : Nat) (v : Byte) : (s.stored a v).mem = s.mem.set a v := rfl
@[simp] theorem State.stored_status (s : State) (a : Nat) (v : Byte) : (s.stored a v).status = s.status := rfl
@[simp] theorem State.stored_err (s : State) (a : Nat) (v : Byte) : (s.stored a v).err = s.err := rfl
@[simp] theorem State.stored_out (s : State) (a : Nat) (v : Byte) : (s.stored a v).out = s.out := rfl
@[simp] theorem State.stored_getReg (s : State) (a : Nat) (v : Byte) (k : RegIndex) :
    (s.stored a v).getReg k = s.getReg k := rfl
@[simp] theorem State.stored_sp (s : State) (a : Nat) (v : Byte) : (s.stored a v).sp = s.sp := rfl

theorem State.stored_memByte (s : State) (a k : Nat) (v : Byte) :
    (s.stored a v).memByte k = if k = a then v else s.memByte k := Memory.get_set _ _ _ _

theorem memWrite_inRange (s : State) {addr : Addr} (v : Byte) (h : addr.toNat ≤ 255) :
    memWrite s addr v = .ok (s.stored addr.toNat v) := if_neg (by rw [memSize_eq]; omega)

/-- A data address is a byte, so a store at it is never out of range (R32). -/
@[simp] theorem memWrite_zext9 (s : State) (a v : Byte) : memWrite s (zext9 a) v = .ok (s.stored a.toNat v) := by
  have ha := a.isLt
  rw [memWrite_inRange s v (by rw [zext9_toNat]; omega), zext9_toNat]

theorem memWrite_outOfRange (s : State) {addr : Addr} (v : Byte) (h : 255 < addr.toNat) :
    memWrite s addr v = .error (.addressOutOfRange .mem addr) := by
  exact if_pos (by rw [memSize_eq]; omega)

/-! Register operands -/

@[simp] theorem regIdx_regByte (r : RegIndex) : regIdx (regByte r) = .ok r := by
  simp [regIdx]

theorem regIdx_above (o : Byte) (h : 7 < o.toNat) : regIdx o = .error (.addressOutOfRange .reg (zext9 o)) := by
  have h' : ¬ o.toNat < Config.nregs := by show ¬ o.toNat < 8; omega
  simp [regIdx, h']

/-- A register operand that passes the check is the byte of its register. -/
theorem regIdx_ok {o : Byte} {r : RegIndex} (h : regIdx o = .ok r) : o = regByte r := by
  unfold regIdx at h
  split at h
  · simp only [Except.ok.injEq] at h
    subst h
    apply BitVec.eq_of_toNat_eq
    simp
  · simp at h

/-- A register operand that fails the check is above 7, and the fault names it. -/
theorem regIdx_error {o : Byte} {e : ErrRecord} (h : regIdx o = .error e) :
    7 < o.toNat ∧ e = .addressOutOfRange .reg (zext9 o) := by
  unfold regIdx at h
  split at h
  · simp at h
  · rename_i ho
    have ho : ¬ o.toNat < 8 := ho
    simp only [Except.error.injEq] at h
    exact ⟨by omega, h.symm⟩

@[simp] theorem withReg_regByte (r : RegIndex) (s : State) (k : RegIndex → Result) : withReg (regByte r) s k = k r := by
  simp [withReg]

theorem withReg_above {o : Byte} (s : State) (k : RegIndex → Result) (h : 7 < o.toNat) :
    withReg o s k = .next (s.raised (.addressOutOfRange .reg (zext9 o))) := by
  simp [withReg, regIdx_above o h]

@[simp] theorem withRegs_regByte (r1 r2 : RegIndex) (s : State) (k : RegIndex → RegIndex → Result) :
    withRegs (regByte r1) (regByte r2) s k = k r1 r2 := by
  simp [withRegs]

theorem withRegs_above_first {o1 : Byte} (o2 : Byte) (s : State) (k : RegIndex → RegIndex → Result) (h : 7 < o1.toNat) :
    withRegs o1 o2 s k = .next (s.raised (.addressOutOfRange .reg (zext9 o1))) := by
  simp [withRegs, regIdx_above o1 h]

theorem withRegs_above_second (r1 : RegIndex) {o2 : Byte} (s : State) (k : RegIndex → RegIndex → Result) (h : 7 < o2.toNat) :
    withRegs (regByte r1) o2 s k = .next (s.raised (.addressOutOfRange .reg (zext9 o2))) := by
  simp [withRegs, regIdx_above o2 h]

/-- Everything a meaning with one register operand can answer. -/
theorem withReg_next {o : Byte} {s t : State} {k : RegIndex → Result} (h : withReg o s k = .next t) :
    (7 < o.toNat ∧ t = s.raised (.addressOutOfRange .reg (zext9 o))) ∨ ∃ r, o = regByte r ∧ k r = .next t := by
  rcases orRaise_next h with ⟨e, he, rfl⟩ | ⟨r, hr, hk⟩
  · obtain ⟨ho, rfl⟩ := regIdx_error he
    exact .inl ⟨ho, rfl⟩
  · exact .inr ⟨r, regIdx_ok hr, hk⟩

/-- Everything a meaning with two register operands can answer. -/
theorem withRegs_next {o1 o2 : Byte} {s t : State} {k : RegIndex → RegIndex → Result} (h : withRegs o1 o2 s k = .next t) :
    (7 < o1.toNat ∧ t = s.raised (.addressOutOfRange .reg (zext9 o1))) ∨
    (∃ r1, o1 = regByte r1 ∧ 7 < o2.toNat ∧ t = s.raised (.addressOutOfRange .reg (zext9 o2))) ∨
    ∃ r1 r2, o1 = regByte r1 ∧ o2 = regByte r2 ∧ k r1 r2 = .next t := by
  rcases withReg_next h with h1 | ⟨r1, h1, h⟩
  · exact .inl h1
  · rcases withReg_next h with ⟨h2, rfl⟩ | ⟨r2, h2, hk⟩
    · exact .inr (.inl ⟨r1, h1, h2, rfl⟩)
    · exact .inr (.inr ⟨r1, r2, h1, h2, hk⟩)

/-! The stack pointer -/

@[simp] theorem spDec_zero : spDec 0 = .error .stackOverflow := rfl

theorem spDec_of_ne {v : Byte} (h : v ≠ 0) : spDec v = .ok (v - 1) := if_neg h

theorem spDec_error {v : Byte} {e : ErrRecord} (h : spDec v = .error e) : v = 0 ∧ e = .stackOverflow := by
  unfold spDec at h
  split at h
  · rename_i hv
    exact ⟨hv, by simpa using h.symm⟩
  · simp at h

theorem spDec_ok {v p : Byte} (h : spDec v = .ok p) : v ≠ 0 ∧ p = v - 1 := by
  unfold spDec at h
  split at h
  · simp at h
  · rename_i hv
    exact ⟨hv, by simpa using h.symm⟩

@[simp] theorem spInc_top : spInc 255 = .error .stackUnderflow := rfl

theorem spInc_of_ne {v : Byte} (h : v ≠ 255) : spInc v = .ok (v + 1) := if_neg h

theorem spInc_error {v : Byte} {e : ErrRecord} (h : spInc v = .error e) : v = 255 ∧ e = .stackUnderflow := by
  unfold spInc at h
  split at h
  · rename_i hv
    exact ⟨hv, by simpa using h.symm⟩
  · simp at h

theorem spInc_ok {v p : Byte} (h : spInc v = .ok p) : v ≠ 255 ∧ p = v + 1 := by
  unfold spInc at h
  split at h
  · simp at h
  · rename_i hv
    exact ⟨hv, by simpa using h.symm⟩

theorem toNat_sub_one {v : Byte} (h : v ≠ 0) : (v - 1).toNat = v.toNat - 1 := by
  have h0 : v.toNat ≠ 0 := fun e => h (BitVec.eq_of_toNat_eq (by simpa using e))
  have := v.isLt
  rw [BitVec.toNat_sub]
  simp
  omega

theorem toNat_add_one {v : Byte} (h : v ≠ 255) : (v + 1).toNat = v.toNat + 1 := by
  have h0 : v.toNat ≠ 255 := fun e => h (BitVec.eq_of_toNat_eq (by simpa using e))
  have := v.isLt
  rw [BitVec.toNat_add]
  simp
  omega

/-! The ALU and the flags -/

theorem alu_add (a b : Byte) : alu .add a b = .ok (a + b) := by
  have h : trunc8 ((a.toNat : Int) + b.toNat) = a + b := by
    apply BitVec.eq_of_toNat_eq
    rw [BitVec.toNat_add, ← Nat.cast_add, trunc8_toNat_cast]
  simp only [alu, h]

theorem alu_sub (a b : Byte) : alu .sub a b = .ok (a - b) := by
  have h : trunc8 ((a.toNat : Int) - b.toNat) = a - b := by
    apply BitVec.eq_of_toNat_eq
    have ha := a.isLt
    have hb := b.isLt
    simp only [trunc8, BitVec.toNat_ofInt, BitVec.toNat_sub]
    omega
  simp only [alu, h]

theorem alu_mul (a b : Byte) : alu .mul a b = .ok (a * b) := by
  have h : trunc8 ((a.toNat : Int) * b.toNat) = a * b := by
    apply BitVec.eq_of_toNat_eq
    rw [BitVec.toNat_mul, ← Nat.cast_mul, trunc8_toNat_cast]
  simp only [alu, h]

/-- The value an ALU operation gives, for the three operations an instruction can name. -/
def aluValue (op : AluOp) (a b : Byte) : Byte :=
  match op with
  | .add => a + b
  | .sub => a - b
  | .mul => a * b
  | .unsupported => 0

theorem alu_supported {op : AluOp} (h : op ≠ .unsupported) (a b : Byte) : alu op a b = .ok (aluValue op a b) := by
  cases op with
  | add => exact alu_add a b
  | sub => exact alu_sub a b
  | mul => exact alu_mul a b
  | unsupported => exact absurd rfl h

theorem execAlu_regByte (m : Mnemonic) {op : AluOp} (h : op ≠ .unsupported) (r1 r2 : RegIndex) (s : State) :
    execAlu m op (regByte r1) (regByte r2) s =
      .next ((s.setReg r1 (aluValue op (s.getReg r1) (s.getReg r2))).advancePc (lengthOf m)) := by
  simp [execAlu, alu_supported h]

theorem execAlu_eq (m : Mnemonic) {op : AluOp} (h : op ≠ .unsupported) (o1 o2 : Byte) (s : State) :
    execAlu m op o1 o2 s = withRegs o1 o2 s fun r1 r2 =>
      .next ((s.setReg r1 (aluValue op (s.getReg r1) (s.getReg r2))).advancePc (lengthOf m)) := by
  simp [execAlu, alu_supported h]

theorem compareFlags_of_lt {a b : Byte} (h : a.toNat < b.toNat) : compareFlags a b = 0x04 := by
  simp only [compareFlags, if_pos h]
  decide

theorem compareFlags_of_gt {a b : Byte} (h : b.toNat < a.toNat) : compareFlags a b = 0x02 := by
  have h' : ¬ a.toNat < b.toNat := by omega
  simp only [compareFlags, if_neg h', if_pos h]
  decide

theorem compareFlags_self (a : Byte) : compareFlags a a = 0x01 := by
  simp only [compareFlags, Nat.lt_irrefl, if_false, gt_iff_lt]
  decide

/-! The meanings, their accesses resolved: only the checks the spec lists are left -/

theorem execLdi_eq (o1 o2 : Byte) (s : State) :
    execLdi o1 o2 s = withReg o1 s fun r1 => .next ((s.setReg r1 o2).advancePc 3) := rfl

theorem execSt_eq (o1 o2 : Byte) (s : State) :
    execSt o1 o2 s = withRegs o1 o2 s fun r1 r2 =>
      .next ((s.stored (s.getReg r1).toNat (s.getReg r2)).advancePc 3) := by
  simp [execSt]

theorem execPush_eq (o1 : Byte) (s : State) :
    execPush o1 s = withReg o1 s fun r1 => orRaise s (spDec s.sp) fun v =>
      .next (((s.setSp v).stored v.toNat ((s.setSp v).getReg r1)).advancePc 2) := by
  simp [execPush]

theorem execPop_eq (o1 : Byte) (s : State) :
    execPop o1 s = withReg o1 s fun r1 =>
      if r1 = Config.spIndex then
        orRaise s (spInc (s.memByte s.sp.toNat)) fun p => .next ((s.setSp p).advancePc 2)
      else
        orRaise s (spInc s.sp) fun p =>
          .next (((s.setReg r1 (s.memByte s.sp.toNat)).setSp p).advancePc 2) := by
  simp [execPop]

theorem execCall_eq (o1 : Byte) (s : State) :
    execCall o1 s = withReg o1 s fun r1 => orRaise s (spDec s.sp) fun v => orRaise s (returnAddress s) fun ret =>
      .next (((s.setSp v).stored v.toNat (ret.setWidth 8)).loadPc ((s.setSp v).getReg r1)) := by
  simp [execCall]

theorem execRet_eq (s : State) :
    execRet s = orRaise s (spInc s.sp) fun p => .next ((s.loadPc (s.memByte s.sp.toNat)).setSp p) := by
  simp [execRet]

theorem returnAddress_of_le {s : State} (h : (s.pc + 2).toNat ≤ 255) : returnAddress s = .ok (s.pc + 2) :=
  if_neg (Nat.not_le.mpr (Nat.lt_succ_of_le h))

theorem returnAddress_of_gt {s : State} (h : 255 < (s.pc + 2).toNat) :
    returnAddress s = .error (.addressOutOfRange .mem (s.pc + 2)) := if_pos h

theorem returnAddress_ok {s : State} {a : Addr} (h : returnAddress s = .ok a) : a = s.pc + 2 ∧ a.toNat ≤ 255 := by
  simp only [returnAddress] at h
  split at h
  · simp at h
  · rename_i hle
    rw [memSize_eq] at hle
    simp only [Except.ok.injEq] at h
    subst h
    exact ⟨rfl, Nat.lt_succ_iff.mp (Nat.not_le.mp hle)⟩

theorem returnAddress_error {s : State} {e : ErrRecord} (h : returnAddress s = .error e) :
    255 < (s.pc + 2).toNat ∧ e = .addressOutOfRange .mem (s.pc + 2) := by
  simp only [returnAddress] at h
  split at h
  · rename_i hgt
    exact ⟨hgt, by simpa using h.symm⟩
  · simp at h

end Sys2Proof.Machine
end

