-- ==== Sys2Proof/Laws/Exec.lean ====
section
/-! SUPPORT. Everything an instruction can do, said once: the faults its meaning can take, and the state it leaves when it
completes (spec/40_execution_loop.md R75, R76, R79). -/

namespace Sys2Proof.Machine

/-- The faults phases 4 and 5 can take: checks 5 to 9 of R79. -/
def ExecFaults (i : Instr) (s : State) (e : ErrRecord) : Prop :=
  (∃ o, i.regOperands.find? (fun o => 7 < o.toNat) = some o ∧ e = .addressOutOfRange .reg (zext9 o)) ∨
  ((i.mnemonic = .push ∨ i.mnemonic = .call) ∧ s.sp = 0 ∧ e = .stackOverflow) ∨
  (i.mnemonic = .call ∧ 255 < (s.pc + 2).toNat ∧ e = .addressOutOfRange .mem (s.pc + 2)) ∨
  ((i.mnemonic = .pop ∨ i.mnemonic = .ret) ∧ e = .stackUnderflow)

/-- The state an instruction leaves when it completes. -/
def ExecDone (i : Instr) (s t : State) : Prop :=
  match i with
  | .ldi o1 o2 => ∃ r, o1 = regByte r ∧ t = (s.setReg r o2).advancePc 3
  | .prn o1 => ∃ r, o1 = regByte r ∧ t = (s.emit (s.getReg r)).advancePc 2
  | .hlt => t = s.setStatus .halted
  | .add o1 o2 => ∃ r1 r2, o1 = regByte r1 ∧ o2 = regByte r2 ∧
      t = (s.setReg r1 (s.getReg r1 + s.getReg r2)).advancePc 3
  | .dec o1 o2 => ∃ r1 r2, o1 = regByte r1 ∧ o2 = regByte r2 ∧
      t = (s.setReg r1 (s.getReg r1 - s.getReg r2)).advancePc 3
  | .mul o1 o2 => ∃ r1 r2, o1 = regByte r1 ∧ o2 = regByte r2 ∧
      t = (s.setReg r1 (s.getReg r1 * s.getReg r2)).advancePc 3
  | .push o1 => ∃ r, o1 = regByte r ∧ s.sp ≠ 0 ∧
      t = ((s.setSp (s.sp - 1)).stored (s.sp.toNat - 1) ((s.setSp (s.sp - 1)).getReg r)).advancePc 2
  | .pop o1 => ∃ r, o1 = regByte r ∧
      ((r = Config.spIndex ∧ s.memByte s.sp.toNat ≠ 255 ∧
          t = (s.setSp (s.memByte s.sp.toNat + 1)).advancePc 2) ∨
        (r ≠ Config.spIndex ∧ s.sp ≠ 255 ∧
          t = ((s.setReg r (s.memByte s.sp.toNat)).setSp (s.sp + 1)).advancePc 2))
  | .call o1 => ∃ r, o1 = regByte r ∧ s.sp ≠ 0 ∧ (s.pc + 2).toNat ≤ 255 ∧
      t = ((s.setSp (s.sp - 1)).stored (s.sp.toNat - 1) ((s.pc + 2).setWidth 8)).loadPc ((s.setSp (s.sp - 1)).getReg r)
  | .ret => s.sp ≠ 255 ∧ t = (s.loadPc (s.memByte s.sp.toNat)).setSp (s.sp + 1)
  | .st o1 o2 => ∃ r1 r2, o1 = regByte r1 ∧ o2 = regByte r2 ∧
      t = (s.stored (s.getReg r1).toNat (s.getReg r2)).advancePc 3
  | .cmp o1 o2 => ∃ r1 r2, o1 = regByte r1 ∧ o2 = regByte r2 ∧
      t = (s.setFl (compareFlags (s.getReg r1) (s.getReg r2))).advancePc 3
  | .jmp o1 => ∃ r, o1 = regByte r ∧ t = s.loadPc (s.getReg r)
  | .jeq o1 => ∃ r, o1 = regByte r ∧ t = if s.flE then s.loadPc (s.getReg r) else s.advancePc 2
  | .jne o1 => ∃ r, o1 = regByte r ∧ t = if s.flE then s.advancePc 2 else s.loadPc (s.getReg r)

theorem find?_regByte_cons (r : RegIndex) (l : List Byte) :
    (regByte r :: l).find? (fun o => 7 < o.toNat) = l.find? (fun o => 7 < o.toNat) := by
  have : ¬ 7 < (regByte r).toNat := by rw [regByte_toNat]; omega
  simp only [List.find?_cons, decide_eq_false this]

theorem find?_above_cons {o : Byte} (l : List Byte) (h : 7 < o.toNat) :
    (o :: l).find? (fun o => 7 < o.toNat) = some o := by
  simp only [List.find?_cons, decide_eq_true h]

/-- A meaning with one checked register answers the operand's fault or what follows the check. -/
theorem exec_withReg {i : Instr} {o : Byte} {s t : State} {k : RegIndex → Result} (hi : i.regOperands = [o])
    (h : withReg o s k = .next t) : (∃ e, ExecFaults i s e ∧ t = s.raised e) ∨ ∃ r, o = regByte r ∧ k r = .next t := by
  rcases withReg_next h with ⟨ho, rfl⟩ | hk
  · exact .inl ⟨_, .inl ⟨o, by rw [hi, find?_above_cons _ ho], rfl⟩, rfl⟩
  · exact .inr hk

/-- A meaning with two checked registers answers the fault of the first bad operand or what follows the checks. -/
theorem exec_withRegs {i : Instr} {o1 o2 : Byte} {s t : State} {k : RegIndex → RegIndex → Result}
    (hi : i.regOperands = [o1, o2]) (h : withRegs o1 o2 s k = .next t) :
    (∃ e, ExecFaults i s e ∧ t = s.raised e) ∨ ∃ r1 r2, o1 = regByte r1 ∧ o2 = regByte r2 ∧ k r1 r2 = .next t := by
  rcases withRegs_next h with ⟨ho, rfl⟩ | ⟨r1, rfl, ho, rfl⟩ | hk
  · exact .inl ⟨_, .inl ⟨o1, by rw [hi, find?_above_cons _ ho], rfl⟩, rfl⟩
  · exact .inl ⟨_, .inl ⟨o2, by rw [hi, find?_regByte_cons, find?_above_cons _ ho], rfl⟩, rfl⟩
  · exact .inr hk

/-- Everything an instruction can answer: a next state it faults to, or the state it completes in. -/
theorem exec_next {i : Instr} {s t : State} (h : exec i s = .next t) :
    (∃ e, ExecFaults i s e ∧ t = s.raised e) ∨ ExecDone i s t := by
  cases i with
  | ldi o1 o2 =>
    rcases exec_withReg (i := .ldi o1 o2) rfl h with hf | ⟨r, hr, hk⟩
    · exact .inl hf
    · exact .inr ⟨r, hr, by simpa using hk.symm⟩
  | prn o1 =>
    rcases exec_withReg (i := .prn o1) rfl h with hf | ⟨r, hr, hk⟩
    · exact .inl hf
    · exact .inr ⟨r, hr, by simpa using hk.symm⟩
  | hlt => exact .inr (show t = s.setStatus .halted by simpa [exec, execHlt] using h.symm)
  | add o1 o2 =>
    have h' := h
    simp only [exec, execAdd, execAlu_eq .add (op := .add) (by decide)] at h'
    rcases exec_withRegs (i := .add o1 o2) rfl h' with hf | ⟨r1, r2, h1, h2, hk⟩
    · exact .inl hf
    · exact .inr ⟨r1, r2, h1, h2, by simpa [aluValue] using hk.symm⟩
  | dec o1 o2 =>
    have h' := h
    simp only [exec, execDec, execAlu_eq .dec (op := .sub) (by decide)] at h'
    rcases exec_withRegs (i := .dec o1 o2) rfl h' with hf | ⟨r1, r2, h1, h2, hk⟩
    · exact .inl hf
    · exact .inr ⟨r1, r2, h1, h2, by simpa [aluValue] using hk.symm⟩
  | mul o1 o2 =>
    have h' := h
    simp only [exec, execMul, execAlu_eq .mul (op := .mul) (by decide)] at h'
    rcases exec_withRegs (i := .mul o1 o2) rfl h' with hf | ⟨r1, r2, h1, h2, hk⟩
    · exact .inl hf
    · exact .inr ⟨r1, r2, h1, h2, by simpa [aluValue] using hk.symm⟩
  | push o1 =>
    have h' := h
    simp only [exec, execPush_eq] at h'
    rcases exec_withReg (i := .push o1) rfl h' with hf | ⟨r, hr, hk⟩
    · exact .inl hf
    · rcases orRaise_next hk with ⟨e, he, rfl⟩ | ⟨p, hp, hk⟩
      · obtain ⟨h0, rfl⟩ := spDec_error he
        exact .inl ⟨_, .inr (.inl ⟨.inl rfl, h0, rfl⟩), rfl⟩
      · obtain ⟨h0, rfl⟩ := spDec_ok hp
        rw [toNat_sub_one h0] at hk
        exact .inr ⟨r, hr, h0, by simpa using hk.symm⟩
  | pop o1 =>
    have h' := h
    simp only [exec, execPop_eq] at h'
    rcases exec_withReg (i := .pop o1) rfl h' with hf | ⟨r, hr, hk⟩
    · exact .inl hf
    · split at hk
      · rename_i h7
        rcases orRaise_next hk with ⟨e, he, rfl⟩ | ⟨p, hp, hk⟩
        · obtain ⟨-, rfl⟩ := spInc_error he
          exact .inl ⟨_, .inr (.inr (.inr ⟨.inl rfl, rfl⟩)), rfl⟩
        · obtain ⟨h0, rfl⟩ := spInc_ok hp
          exact .inr ⟨r, hr, .inl ⟨h7, h0, by simpa using hk.symm⟩⟩
      · rename_i h7
        rcases orRaise_next hk with ⟨e, he, rfl⟩ | ⟨p, hp, hk⟩
        · obtain ⟨-, rfl⟩ := spInc_error he
          exact .inl ⟨_, .inr (.inr (.inr ⟨.inl rfl, rfl⟩)), rfl⟩
        · obtain ⟨h0, rfl⟩ := spInc_ok hp
          exact .inr ⟨r, hr, .inr ⟨h7, h0, by simpa using hk.symm⟩⟩
  | call o1 =>
    have h' := h
    simp only [exec, execCall_eq] at h'
    rcases exec_withReg (i := .call o1) rfl h' with hf | ⟨r, hr, hk⟩
    · exact .inl hf
    · rcases orRaise_next hk with ⟨e, he, rfl⟩ | ⟨p, hp, hk⟩
      · obtain ⟨h0, rfl⟩ := spDec_error he
        exact .inl ⟨_, .inr (.inl ⟨.inr rfl, h0, rfl⟩), rfl⟩
      · obtain ⟨h0, rfl⟩ := spDec_ok hp
        rcases orRaise_next hk with ⟨e, he, rfl⟩ | ⟨a, ha, hk⟩
        · obtain ⟨hgt, rfl⟩ := returnAddress_error he
          exact .inl ⟨_, .inr (.inr (.inl ⟨rfl, hgt, rfl⟩)), rfl⟩
        · obtain ⟨rfl, hle⟩ := returnAddress_ok ha
          rw [toNat_sub_one h0] at hk
          exact .inr ⟨r, hr, h0, hle, by simpa using hk.symm⟩
  | ret =>
    simp only [exec, execRet_eq] at h
    rcases orRaise_next h with ⟨e, he, rfl⟩ | ⟨p, hp, hk⟩
    · obtain ⟨-, rfl⟩ := spInc_error he
      exact .inl ⟨_, .inr (.inr (.inr ⟨.inr rfl, rfl⟩)), rfl⟩
    · obtain ⟨h0, rfl⟩ := spInc_ok hp
      exact .inr ⟨h0, by simpa using hk.symm⟩
  | st o1 o2 =>
    have h' := h
    simp only [exec, execSt_eq] at h'
    rcases exec_withRegs (i := .st o1 o2) rfl h' with hf | ⟨r1, r2, h1, h2, hk⟩
    · exact .inl hf
    · exact .inr ⟨r1, r2, h1, h2, by simpa using hk.symm⟩
  | cmp o1 o2 =>
    rcases exec_withRegs (i := .cmp o1 o2) rfl h with hf | ⟨r1, r2, h1, h2, hk⟩
    · exact .inl hf
    · exact .inr ⟨r1, r2, h1, h2, by simpa using hk.symm⟩
  | jmp o1 =>
    rcases exec_withReg (i := .jmp o1) rfl h with hf | ⟨r, hr, hk⟩
    · exact .inl hf
    · exact .inr ⟨r, hr, by simpa using hk.symm⟩
  | jeq o1 =>
    rcases exec_withReg (i := .jeq o1) rfl h with hf | ⟨r, hr, hk⟩
    · exact .inl hf
    · refine .inr ⟨r, hr, ?_⟩
      cases hE : s.flE <;> simp [hE] at hk ⊢ <;> exact hk.symm
  | jne o1 =>
    rcases exec_withReg (i := .jne o1) rfl h with hf | ⟨r, hr, hk⟩
    · exact .inl hf
    · refine .inr ⟨r, hr, ?_⟩
      cases hE : s.flE <;> simp [hE] at hk ⊢ <;> exact hk.symm

/-- An instruction completes in the state said: the converse of `exec_next` for the states that are no fault. -/
theorem exec_done {i : Instr} {s t : State} (h : ExecDone i s t) : exec i s = .next t := by
  cases i with
  | ldi o1 o2 =>
    obtain ⟨r, rfl, rfl⟩ := h
    simp [exec, execLdi]
  | prn o1 =>
    obtain ⟨r, rfl, rfl⟩ := h
    simp [exec, execPrn]
  | hlt =>
    cases h
    rfl
  | add o1 o2 =>
    obtain ⟨r1, r2, rfl, rfl, rfl⟩ := h
    exact execAlu_regByte .add (op := .add) (by decide) r1 r2 s
  | dec o1 o2 =>
    obtain ⟨r1, r2, rfl, rfl, rfl⟩ := h
    exact execAlu_regByte .dec (op := .sub) (by decide) r1 r2 s
  | mul o1 o2 =>
    obtain ⟨r1, r2, rfl, rfl, rfl⟩ := h
    exact execAlu_regByte .mul (op := .mul) (by decide) r1 r2 s
  | push o1 =>
    obtain ⟨r, rfl, h0, rfl⟩ := h
    simp only [exec, execPush_eq, withReg_regByte, spDec_of_ne h0, orRaise_ok, toNat_sub_one h0]
  | pop o1 =>
    obtain ⟨r, rfl, ⟨h7, h0, rfl⟩ | ⟨h7, h0, rfl⟩⟩ := h
    · simp [exec, execPop_eq, h7, spInc_of_ne h0]
    · simp [exec, execPop_eq, h7, spInc_of_ne h0]
  | call o1 =>
    obtain ⟨r, rfl, h0, hle, rfl⟩ := h
    simp only [exec, execCall_eq, withReg_regByte, spDec_of_ne h0, orRaise_ok, toNat_sub_one h0,
      returnAddress_of_le hle]
  | ret =>
    obtain ⟨h0, rfl⟩ := h
    simp [exec, execRet_eq, spInc_of_ne h0]
  | st o1 o2 =>
    obtain ⟨r1, r2, rfl, rfl, rfl⟩ := h
    simp [exec, execSt_eq]
  | cmp o1 o2 =>
    obtain ⟨r1, r2, rfl, rfl, rfl⟩ := h
    simp [exec, execCmp]
  | jmp o1 =>
    obtain ⟨r, rfl, rfl⟩ := h
    simp [exec, execJmp]
  | jeq o1 =>
    obtain ⟨r, rfl, rfl⟩ := h
    cases hE : s.flE <;> simp [exec, execJeq, execBranch, hE]
  | jne o1 =>
    obtain ⟨r, rfl, rfl⟩ := h
    cases hE : s.flE <;> simp [exec, execJne, execBranch, hE]

end Sys2Proof.Machine
end

