-- ==== Sys2Proof/Laws/PerInstr.lean ====
section
/-! SUPPORT. Per instruction, about its encoding as bytes: its length, and where its register operands stand
(spec/30_encoding.md R50, R51). -/

namespace Sys2Proof.Laws.Encoding

/-- For every opcode map the instruction is its opcode byte and its operand bytes, as many as its format says, 1 to 3 in
all; and its register operands are the first of its operand bytes, in order. -/
def Statement (i : Instr) : Prop :=
  (∀ map, (encodeWith map i).length = i.length) ∧ 1 ≤ i.length ∧ i.length ≤ 3 ∧
    i.operandBytes.length = nopsOf i.mnemonic ∧ i.regOperands <+: i.operandBytes

/-- An instruction is 1 to 3 bytes long (R50). -/
theorem length_bounds (i : Instr) : 1 ≤ i.length ∧ i.length ≤ 3 := by
  unfold Instr.length
  cases i.mnemonic <;> decide

theorem ldi (o1 o2 : Byte) : Statement (.ldi o1 o2) := ⟨fun _ => rfl, (length_bounds _).1, (length_bounds _).2, rfl, [o2], rfl⟩
theorem prn (o1 : Byte) : Statement (.prn o1) := ⟨fun _ => rfl, (length_bounds _).1, (length_bounds _).2, rfl, [], rfl⟩
theorem hlt : Statement .hlt := ⟨fun _ => rfl, (length_bounds _).1, (length_bounds _).2, rfl, [], rfl⟩
theorem add (o1 o2 : Byte) : Statement (.add o1 o2) := ⟨fun _ => rfl, (length_bounds _).1, (length_bounds _).2, rfl, [], rfl⟩
theorem dec (o1 o2 : Byte) : Statement (.dec o1 o2) := ⟨fun _ => rfl, (length_bounds _).1, (length_bounds _).2, rfl, [], rfl⟩
theorem mul (o1 o2 : Byte) : Statement (.mul o1 o2) := ⟨fun _ => rfl, (length_bounds _).1, (length_bounds _).2, rfl, [], rfl⟩
theorem push (o1 : Byte) : Statement (.push o1) := ⟨fun _ => rfl, (length_bounds _).1, (length_bounds _).2, rfl, [], rfl⟩
theorem pop (o1 : Byte) : Statement (.pop o1) := ⟨fun _ => rfl, (length_bounds _).1, (length_bounds _).2, rfl, [], rfl⟩
theorem call (o1 : Byte) : Statement (.call o1) := ⟨fun _ => rfl, (length_bounds _).1, (length_bounds _).2, rfl, [], rfl⟩
theorem ret : Statement .ret := ⟨fun _ => rfl, (length_bounds _).1, (length_bounds _).2, rfl, [], rfl⟩
theorem st (o1 o2 : Byte) : Statement (.st o1 o2) := ⟨fun _ => rfl, (length_bounds _).1, (length_bounds _).2, rfl, [], rfl⟩
theorem cmp (o1 o2 : Byte) : Statement (.cmp o1 o2) := ⟨fun _ => rfl, (length_bounds _).1, (length_bounds _).2, rfl, [], rfl⟩
theorem jmp (o1 : Byte) : Statement (.jmp o1) := ⟨fun _ => rfl, (length_bounds _).1, (length_bounds _).2, rfl, [], rfl⟩
theorem jeq (o1 : Byte) : Statement (.jeq o1) := ⟨fun _ => rfl, (length_bounds _).1, (length_bounds _).2, rfl, [], rfl⟩
theorem jne (o1 : Byte) : Statement (.jne o1) := ⟨fun _ => rfl, (length_bounds _).1, (length_bounds _).2, rfl, [], rfl⟩

end Sys2Proof.Laws.Encoding
end

