-- ==== Sys2Proof/Laws/Step.lean ====
section
/-! SUPPORT. What a step can do (spec/40_execution_loop.md R70, R80). -/

namespace Sys2Proof.Machine

theorem stepWith_running (map : Mnemonic → Byte) {s : State} (h : s.status = .running) :
    stepWith map s = orRaise s (fetchInstr map s) fun i => exec i s := by
  simp [stepWith, runInstr, h]

theorem stepWith_notRunning (map : Mnemonic → Byte) {s : State} (h : s.status ≠ .running) : stepWith map s = .next s := by
  unfold stepWith
  split
  · rename_i hr
    exact absurd hr h
  all_goals rfl

/-- Everything a step can do: nothing outside Running; else a fault of the fetch, or the instruction fetched. -/
theorem stepWith_next {map : Mnemonic → Byte} {s t : State} (h : stepWith map s = .next t) :
    (s.status ≠ .running ∧ t = s) ∨
    (s.status = .running ∧ ∃ e, fetchInstr map s = .error e ∧ t = s.raised e) ∨
    (s.status = .running ∧ ∃ i, fetchInstr map s = .ok i ∧ exec i s = .next t) := by
  by_cases hr : s.status = .running
  · rw [stepWith_running map hr] at h
    rcases orRaise_next h with ⟨e, he, ht⟩ | ⟨i, hi, ht⟩
    · exact .inr (.inl ⟨hr, e, he, ht⟩)
    · exact .inr (.inr ⟨hr, i, hi, ht⟩)
  · rw [stepWith_notRunning map hr] at h
    exact .inl ⟨hr, by simpa using h.symm⟩

/-- The address of a byte of the instruction at `pc`, for a `pc` inside memory: it does not wrap at 9 bits. -/
theorem pc_add_toNat {s : State} (h : s.pc.toNat ≤ 256) {k : Nat} (hk : k ≤ 3) :
    (s.pc + BitVec.ofNat 9 k).toNat = s.pc.toNat + k := by
  rw [BitVec.toNat_add, BitVec.toNat_ofNat]
  omega

/-- Operand bytes a format does not have do not matter (R50). -/
theorem assemble_nops_zero {m : Mnemonic} (h : nopsOf m = 0) (a b c d : Byte) : assemble m a b = assemble m c d := by
  cases m <;> first | rfl | exact absurd h (by decide)

theorem assemble_nops_one {m : Mnemonic} (h : nopsOf m = 1) (a b d : Byte) : assemble m a b = assemble m a d := by
  cases m <;> first | rfl | exact absurd h (by decide)

theorem nopsOf_cases (m : Mnemonic) : nopsOf m = 0 ∨ nopsOf m = 1 ∨ nopsOf m = 2 := by
  cases m <;> decide

/-- A byte of the instruction at `pc`, read in place. -/
theorem memRead_instr (s : State) (h : s.pc.toNat ≤ 255) {k : Nat} (hk : k ≤ 2) :
    memRead s (s.pc + BitVec.ofNat 9 k) =
      if s.pc.toNat + k ≤ 255 then .ok (s.memByte (s.pc.toNat + k)) else .error (.addressOutOfRange .mem (s.pc + BitVec.ofNat 9 k)) := by
  have ha : (s.pc + BitVec.ofNat 9 k).toNat = s.pc.toNat + k := pc_add_toNat (by omega) (by omega)
  split
  · rw [memRead_inRange s (by omega), ha]
  · rw [memRead_outOfRange s (by omega)]

/-- An address of 256 that the instruction at `pc` reaches. -/
theorem pc_add_eq_top {s : State} {k : Nat} (h : s.pc.toNat + k = 256) (hk : k ≤ 3) : s.pc + BitVec.ofNat 9 k = 256 := by
  apply BitVec.eq_of_toNat_eq
  rw [pc_add_toNat (by omega) hk, h]
  rfl

/-- The fetch, in full: the fault of an opcode above the top of memory, the fault of an invalid opcode, the fault of an
operand byte above the top (always at 256), or the instruction of the bytes in place. -/
theorem fetchInstr_eq (map : Mnemonic → Byte) (s : State) :
    fetchInstr map s =
      if 255 < s.pc.toNat then .error (.addressOutOfRange .mem s.pc)
      else match dispatchWith map (s.memByte s.pc.toNat) with
        | none => .error (.invalidOpcode s.pc (s.memByte s.pc.toNat))
        | some m =>
          if s.pc.toNat + lengthOf m ≤ 256 then
            .ok (assemble m (s.memByte (s.pc.toNat + 1)) (s.memByte (s.pc.toNat + 2)))
          else .error (.addressOutOfRange .mem 256) := by
  by_cases hpc : 255 < s.pc.toNat
  · simp [fetchInstr, readInstr, memRead_outOfRange s hpc, hpc]
  · have h : s.pc.toNat ≤ 255 := by omega
    have h0 := memRead_instr s h (k := 0) (by omega)
    have h1 := memRead_instr s h (k := 1) (by omega)
    have h2 := memRead_instr s h (k := 2) (by omega)
    rw [if_pos (by omega)] at h0
    simp only [fetchInstr, readInstr, h0, h1, h2, if_neg hpc, Nat.add_zero]
    cases dispatchWith map (s.memByte s.pc.toNat) with
    | none => rfl
    | some m =>
      rcases nopsOf_cases m with hn | hn | hn
      · simp only [hn, lengthOf]
        rw [if_pos (by omega), assemble_nops_zero hn]
      · simp only [hn, lengthOf]
        by_cases hk : s.pc.toNat + 1 ≤ 255
        · rw [if_pos hk, if_pos (by omega)]
          simp only [assemble_nops_one hn _ 0 (s.memByte (s.pc.toNat + 2))]
        · rw [if_neg hk, if_neg (by omega), pc_add_eq_top (by omega) (by omega)]
      · simp only [hn, lengthOf]
        by_cases hk : s.pc.toNat + 1 ≤ 255
        · by_cases hk2 : s.pc.toNat + 2 ≤ 255
          · rw [if_pos hk, if_pos hk2, if_pos (by omega)]
          · rw [if_pos hk, if_neg hk2, if_neg (by omega), pc_add_eq_top (by omega) (by omega)]
        · rw [if_neg hk, if_neg (show ¬ s.pc.toNat + (1 + 2) ≤ 256 by omega), pc_add_eq_top (by omega) (by omega)]

/-- An instruction that is fetched lies whole inside memory and is that of its bytes in place. -/
theorem fetchInstr_ok {map : Mnemonic → Byte} {s : State} {i : Instr} (h : fetchInstr map s = .ok i) :
    dispatchWith map (s.memByte s.pc.toNat) = some i.mnemonic ∧ s.pc.toNat + i.length ≤ 256 ∧
      i = assemble i.mnemonic (s.memByte (s.pc.toNat + 1)) (s.memByte (s.pc.toNat + 2)) := by
  rw [fetchInstr_eq] at h
  split at h
  · simp at h
  · split at h
    · simp at h
    · rename_i m hm
      split at h
      · rename_i hl
        simp only [Except.ok.injEq] at h
        subst h
        simp [hm, Instr.length, hl]
      · simp at h

/-- Every fault a fetch can take. -/
theorem fetchInstr_error {map : Mnemonic → Byte} {s : State} {e : ErrRecord} (h : fetchInstr map s = .error e) :
    (255 < s.pc.toNat ∧ e = .addressOutOfRange .mem s.pc) ∨
    (s.pc.toNat ≤ 255 ∧ dispatchWith map (s.memByte s.pc.toNat) = none ∧
      e = .invalidOpcode s.pc (s.memByte s.pc.toNat)) ∨
    (s.pc.toNat ≤ 255 ∧ e = .addressOutOfRange .mem 256) := by
  rw [fetchInstr_eq] at h
  split at h
  · rename_i hpc
    exact .inl ⟨hpc, by simpa using h.symm⟩
  · rename_i hpc
    split at h
    · rename_i hm
      exact .inr (.inl ⟨by omega, hm, by simpa using h.symm⟩)
    · split at h
      · simp at h
      · exact .inr (.inr ⟨by omega, by simpa using h.symm⟩)

end Sys2Proof.Machine
end

