-- ==== Sys2Proof/Machine/Ports.lean ====
section
/-! DEFINITION. The values on the core's output ports (spec/47_blocks_and_interfaces.md R153, R159), with the codes of
spec/10_state.md R18 and spec/60_exceptions.md R171. Their timing is out of the spec's scope.
DESIGN CHOICE, safe, log 24. -/

namespace Sys2Proof.Machine

/-- `status` (R18, R159). -/
def statusPort (s : State) : BitVec 2 :=
  match s.status with
  | .idle => 0
  | .running => 1
  | .halted => 2
  | .faulted => 3

/-- `err_kind` (R159, R171). -/
def errKindPort (s : State) : BitVec 3 :=
  match s.err with
  | none => 0
  | some (.invalidOpcode _ _) => 1
  | some (.addressOutOfRange _ _) => 2
  | some (.unsupportedAluOperation _) => 3
  | some .stackOverflow => 4
  | some .stackUnderflow => 5

/-- `err_space`, for AddressOutOfRange only (R159). -/
def errSpacePort (s : State) : Option (BitVec 1) :=
  match s.err with
  | some (.addressOutOfRange .mem _) => some 0
  | some (.addressOutOfRange .reg _) => some 1
  | _ => none

/-- `err_value`, for AddressOutOfRange and InvalidOpcode only (R159). -/
def errValuePort (s : State) : Option Addr :=
  match s.err with
  | some (.addressOutOfRange _ v) => some v
  | some (.invalidOpcode a _) => some a
  | _ => none

/-- `err_opcode`, for InvalidOpcode only (R159). -/
def errOpcodePort (s : State) : Option Byte :=
  match s.err with
  | some (.invalidOpcode _ op) => some op
  | _ => none

/-- The transfers on `prn_valid` and `prn_data` between two states of a run (R143, R159). -/
def prnTransfers (before after : State) : List Byte := after.out.drop before.out.length

/-- The 2-bit ALU selector R153 names as one realisation. DESIGN CHOICE, safe, log 9. -/
def aluSelector : AluOp → BitVec 2
  | .add => 0
  | .sub => 1
  | .mul => 2
  | .unsupported => 3

end Sys2Proof.Machine
end

