-- ==== Sys2Proof/Tests/Slice0.lean ====
section
/-! SUPPORT. Tests. Expected results are from spec/: the document's worked examples (W), the derived vectors of
spec/95_test_vectors.md (DM, AL, CF, SK, CT, SY, XF, HO) and the tables of the rules named. Then, for each statement with
hypotheses, a state and operands that meet them. -/

namespace Sys2Proof.Tests
open Sys2Proof Sys2Proof.Machine

/-- The launch state (R164) with the program counter at `p` and bytes written there. -/
def runAt (p : Nat) (bytes : List Byte) : State :=
  { boot [] with pc := BitVec.ofNat 9 p, mem := Memory.writeBytes [] p bytes }

/-- A state with one more byte of memory written. -/
def poke (s : State) (a : Nat) (v : Byte) : State := { s with mem := s.mem.set a v }

/-- A reading of the state after one step. -/
def after {α : Type} (s : State) (f : State → α) : Option α :=
  match step s with
  | .next t => some (f t)
  | .fault _ => none
  | .refused _ => none

/-- What a fault leaves: STATUS, ERR and `pc`. -/
def faultView (t : State) : Status × Option ErrRecord × Addr := (t.status, t.err, t.pc)

/-- An image of a given length. -/
def ones (n : Nat) : List Byte := List.replicate n 1

theorem ones_length (n : Nat) : (ones n).length = n := List.length_replicate

/-! Well-formedness: each register operand of each instruction is checked (R52, R60); an immediate is not (R53) -/

theorem test_wellFormed_accepts : (Instr.wellFormed (.ldi 7 0xFF) && Instr.wellFormed (.add 0 7) && Instr.wellFormed .ret
    && Instr.wellFormed .hlt) = true := by decide

theorem test_wellFormed_refuses_first : ([.ldi 8 0, .prn 8, .add 8 0, .dec 8 0, .mul 8 0, .push 8, .pop 8, .call 8, .st 8 0,
    .cmp 8 0, .jmp 8, .jeq 8, .jne 8] : List Instr).all (fun i => !i.wellFormed) = true := by decide

theorem test_wellFormed_refuses_second : ([.add 0 8, .dec 0 8, .mul 0 8, .st 0 8, .cmp 0 255] : List Instr).all
    (fun i => !i.wellFormed) = true := by decide

/-! Decoding: every constructor by a word written out from the table of R56 -/

theorem test_decode_ldi : decode [0b10000010, 0b00000000, 0b00001000] = .ok (.ldi 0 8, []) := by decide
theorem test_decode_prn : decode [0b01000111, 0b00000011] = .ok (.prn 3, []) := by decide
theorem test_decode_hlt : decode [0b00000001] = .ok (.hlt, []) := by decide
theorem test_decode_add : decode [0b10100000, 0b00000001, 0b00000010] = .ok (.add 1 2, []) := by decide
theorem test_decode_dec : decode [0b01100110, 0b00000001, 0b00000010] = .ok (.dec 1 2, []) := by decide
theorem test_decode_mul : decode [0b10100010, 0b00000001, 0b00000010] = .ok (.mul 1 2, []) := by decide
theorem test_decode_push : decode [0b01000101, 0b00000101] = .ok (.push 5, []) := by decide
theorem test_decode_pop : decode [0b01000110, 0b00000110] = .ok (.pop 6, []) := by decide
theorem test_decode_call : decode [0b01010000, 0b00000001] = .ok (.call 1, []) := by decide
theorem test_decode_ret : decode [0b00010001] = .ok (.ret, []) := by decide
theorem test_decode_st : decode [0b10000100, 0b00000001, 0b00000010] = .ok (.st 1 2, []) := by decide
theorem test_decode_cmp : decode [0b10100111, 0b00000001, 0b00000010] = .ok (.cmp 1 2, []) := by decide
theorem test_decode_jmp : decode [0b01010100, 0b00000111] = .ok (.jmp 7, []) := by decide
theorem test_decode_jeq : decode [0b01010101, 0b00000010] = .ok (.jeq 2, []) := by decide
theorem test_decode_jne : decode [0b01010110, 0b00000010] = .ok (.jne 2, []) := by decide

/-- R58, R74: refusals by name. -/
theorem test_decode_refusals : decode [0x00] = .error (.invalidOpcode 0) ∧ decode [0xA1, 0, 1] = .error (.invalidOpcode 0xA1)
    ∧ decode [] = .error (.missingByte 0) ∧ decode [0x47] = .error (.missingByte 1)
    ∧ decode [0x82, 0x00] = .error (.missingByte 2) := by decide

/-- AL28, R57: under the alternative map 0xA1 is DEC and 0x66 is invalid. -/
theorem test_decode_alternative_map : decodeWith Config.opcodeMapDecAlt [0xA1, 0, 1] = .ok (.dec 0 1, []) ∧
    dispatchWith Config.opcodeMapDecAlt 0x66 = none := by decide

/-- The words of spec/opcode_table.json, "match" with "encoding_convention": the byte at pc is the most significant. -/
theorem test_table_words : decodeTableWord 24 0x820000 = some (.ldi 0 0) ∧ decodeTableWord 16 0x4700 = some (.prn 0) ∧
    decodeTableWord 8 0x01 = some .hlt ∧ decodeTableWord 24 0xA00102 = some (.add 1 2) ∧
    decodeTableWord 24 0x660000 = some (.dec 0 0) ∧ decodeTableWord 24 0xA20000 = some (.mul 0 0) ∧
    decodeTableWord 16 0x4503 = some (.push 3) ∧ decodeTableWord 16 0x4600 = some (.pop 0) ∧
    decodeTableWord 16 0x5000 = some (.call 0) ∧ decodeTableWord 8 0x11 = some .ret ∧
    decodeTableWord 24 0x840000 = some (.st 0 0) ∧ decodeTableWord 24 0xA70000 = some (.cmp 0 0) ∧
    decodeTableWord 16 0x5400 = some (.jmp 0) ∧ decodeTableWord 16 0x5500 = some (.jeq 0) ∧
    decodeTableWord 16 0x5600 = some (.jne 0) := by decide

/-- `withFetchWord` from reset: the next step runs the word (W2's first half; SY2). -/
theorem test_withFetchWord : after (State.reset.withFetchWord 24 0x820008) (fun t => (t.getReg 0, t.pc)) = some (8, 3) ∧
    after (State.reset.withFetchWord 16 0x4707) (fun t => t.out) = some [244] := by decide

/-! One step of each instruction -/

/-- DM1, W2; DM2. -/
theorem test_ldi : after (runAt 0 [0x82, 0x00, 0x08]) (fun t => (t.getReg 0, t.pc)) = some (8, 3) ∧
    after (runAt 0 [0x82, 0x07, 0xFF]) (fun t => (t.sp, t.pc, t.status)) = some (0xFF, 3, .running) := by decide

/-- DM3, W13. -/
theorem test_st : after (((runAt 0 [0x84, 0x01, 0x02]).setReg 1 0x40).setReg 2 0x77) (fun t => (t.memByte 0x40, t.pc))
    = some (0x77, 3) := by decide

/-- DM5: ST overwrites its own opcode byte and completes. -/
theorem test_st_over_itself : after ((runAt 0 [0x84, 0x00, 0x01]).setReg 1 0x01)
    (fun t => (t.memByte 0, t.memByte 1, t.memByte 2, t.pc)) = some (0x01, 0x00, 0x01, 3) := by decide

/-- AL4; AL25. -/
theorem test_add : after (((runAt 0 [0xA0, 0x00, 0x01]).setReg 0 200).setReg 1 100) (fun t => (t.getReg 0, t.fl, t.pc))
      = some (44, 0, 3) ∧
    after (((runAt 0 [0xA0, 0x07, 0x01]).setSp 0xFF).setReg 1 1) (fun t => (t.sp, t.status)) = some (0x00, .running) := by
  decide

/-- AL20: the same register twice. -/
theorem test_add_same_register : after ((runAt 0 [0xA0, 0x00, 0x00]).setReg 0 0x81) (fun t => t.getReg 0) = some 0x02 := by
  decide

/-- AL9; AL24. -/
theorem test_dec : after (((runAt 0 [0x66, 0x00, 0x01]).setReg 0 10).setReg 1 20) (fun t => (t.getReg 0, t.pc))
      = some (246, 3) ∧
    after (((runAt 0 [0x66, 0x07, 0x01]).setSp 0).setReg 1 1) (fun t => (t.sp, t.status)) = some (0xFF, .running) := by decide

/-- AL14; AL12. -/
theorem test_mul : after (((runAt 0 [0xA2, 0x00, 0x01]).setReg 0 255).setReg 1 255) (fun t => t.getReg 0) = some 1 ∧
    after (((runAt 0 [0xA2, 0x00, 0x01]).setReg 0 8).setReg 1 9) (fun t => (t.getReg 0, t.pc)) = some (72, 3) := by decide

/-- CF1, W5; CF3. -/
theorem test_cmp : after (((runAt 0 [0xA7, 0x00, 0x01]).setReg 0 10).setReg 1 20) (fun t => (t.fl, t.flL, t.flG, t.flE))
      = some (0x04, true, false, false) ∧
    after (((runAt 0 [0xA7, 0x00, 0x01]).setReg 0 10).setReg 1 10) (fun t => (t.fl, t.pc)) = some (0x01, 3) := by decide

/-- CF4: the compare is unsigned; CF6: the old flag is replaced. -/
theorem test_cmp_unsigned : after (((runAt 0 [0xA7, 0x00, 0x01]).setReg 0 0x80).setReg 1 0x7F) (fun t => t.fl) = some 0x02 ∧
    after (((runAt 0 [0xA7, 0x00, 0x01]).setFl 0x01).setReg 1 0xFF) (fun t => t.fl) = some 0x04 := by decide

/-- SK1, W3, W11; SK3. -/
theorem test_push : after ((runAt 0 [0x45, 0x00]).setReg 0 42) (fun t => (t.sp, t.memByte 0xF3, t.memByte 0xF4, t.pc))
      = some (0xF3, 42, 0, 2) ∧
    after (((runAt 0 [0x45, 0x00]).setSp 1).setReg 0 0xAB) (fun t => (t.sp, t.memByte 0)) = some (0, 0xAB) := by decide

/-- SK8: PUSH R7. -/
theorem test_push_sp : after (runAt 0 [0x45, 0x07]) (fun t => (t.sp, t.memByte 0xF3)) = some (0xF3, 0xF3) := by decide

/-- SK2, W3; SK5. -/
theorem test_pop : after (poke ((runAt 0 [0x46, 0x01]).setSp 0xF3) 0xF3 42) (fun t => (t.getReg 1, t.sp, t.memByte 0xF3, t.pc))
      = some (42, 0xF4, 42, 2) ∧
    after (poke ((runAt 0 [0x46, 0x00]).setSp 254) 254 0x5A) (fun t => (t.getReg 0, t.sp)) = some (0x5A, 255) := by decide

/-- SK9, SK10: POP R7. -/
theorem test_pop_sp : after (poke (runAt 0 [0x46, 0x07]) 0xF4 0x20) (fun t => (t.sp, t.pc)) = some (0x21, 2) ∧
    after (poke (runAt 0 [0x46, 0x07]) 0xF4 0xFF) faultView = some (.faulted, some .stackUnderflow, 0) := by decide

/-- CT1, W4; CT6. -/
theorem test_call : after ((runAt 6 [0x50, 0x01]).setReg 1 0x18) (fun t => (t.sp, t.memByte 0xF3, t.pc))
      = some (0xF3, 0x08, 0x18) ∧
    after (runAt 0 [0x50, 0x07]) (fun t => (t.sp, t.memByte 0xF3, t.pc)) = some (0xF3, 0x02, 0xF3) := by decide

/-- CT7; CT8: the stack check comes first. -/
theorem test_call_at_254 : after ((runAt 254 [0x50, 0x01]).setReg 1 0x10) (fun t => (faultView t, t.sp, t.memByte 0xF3))
      = some ((.faulted, some (.addressOutOfRange .mem 256), 254), 0xF4, 0) ∧
    after ((runAt 254 [0x50, 0x01]).setSp 0) faultView = some (.faulted, some .stackOverflow, 254) := by decide

/-- CT2, W4; CT4. -/
theorem test_ret : after (poke ((runAt 0x18 [0x11]).setSp 0xF3) 0xF3 0x08) (fun t => (t.pc, t.sp)) = some (0x08, 0xF4) ∧
    after ((runAt 0 [0x11]).setSp 255) faultView = some (.faulted, some .stackUnderflow, 0) := by decide

/-- CT9; CT19. -/
theorem test_jmp : after ((runAt 0x10 [0x54, 0x02]).setReg 2 0x20) (fun t => t.pc) = some 0x20 ∧
    after ((runAt 0 [0x54, 0x00]).setReg 0 0xFF) (fun t => t.pc) = some 255 := by decide

/-- CT11, W6; CT12. -/
theorem test_jeq : after (((runAt 9 [0x55, 0x02]).setFl 0x01).setReg 2 0x30) (fun t => t.pc) = some 0x30 ∧
    after (((runAt 9 [0x55, 0x02]).setFl 0x04).setReg 2 0x30) (fun t => t.pc) = some 11 := by decide

/-- CT13, W6; CT14. -/
theorem test_jne : after (((runAt 9 [0x56, 0x02]).setFl 0x01).setReg 2 0x30) (fun t => t.pc) = some 11 ∧
    after (((runAt 9 [0x56, 0x02]).setFl 0x02).setReg 2 0x30) (fun t => t.pc) = some 0x30 := by decide

/-- SY1, SY6, W14. -/
theorem test_hlt : after (runAt 5 [0x01]) (fun t => (t.status, t.pc, t.err)) = some (.halted, 5, none) ∧
    after (runAt 255 [0x01]) (fun t => (t.status, t.pc)) = some (.halted, 255) := by decide

/-- SY2, W2; SY3. -/
theorem test_prn : after ((runAt 0 [0x47, 0x00]).setReg 0 8) (fun t => (t.out, t.pc)) = some ([8], 2) ∧
    after ((runAt 0 [0x47, 0x03]).setReg 3 255) (fun t => prnTransfers (runAt 0 []) t) = some [255] := by decide

/-! Fetch, operands and faults -/

/-- XF1, W7 (XF2), XF3, XF11. -/
theorem test_invalid_opcode : after (runAt 0 [0x00]) faultView = some (.faulted, some (.invalidOpcode 0 0x00), 0) ∧
    after (runAt 0 [0xFF]) faultView = some (.faulted, some (.invalidOpcode 0 0xFF), 0) ∧
    after (runAt 0x21 [0x83]) faultView = some (.faulted, some (.invalidOpcode 0x21 0x83), 0x21) ∧
    after (runAt 255 [0xFF]) faultView = some (.faulted, some (.invalidOpcode 255 0xFF), 255) := by decide

/-- XF5, XF6, XF7, XF8. -/
theorem test_fetch_out_of_range : after (runAt 256 []) faultView = some (.faulted, some (.addressOutOfRange .mem 256), 256) ∧
    after (runAt 255 [0x47]) faultView = some (.faulted, some (.addressOutOfRange .mem 256), 255) ∧
    after (runAt 254 [0x82, 0x00]) faultView = some (.faulted, some (.addressOutOfRange .mem 256), 254) ∧
    after (runAt 255 [0x82]) faultView = some (.faulted, some (.addressOutOfRange .mem 256), 255) := by decide

/-- XF9, XF10: the step at the top completes and leaves `pc` at 256. -/
theorem test_top_of_memory_completes :
    after (((runAt 253 [0x84, 0x01, 0x02]).setReg 1 0x40).setReg 2 0x77) (fun t => (t.memByte 0x40, t.pc, t.status))
      = some (0x77, 256, .running) ∧
    after ((runAt 254 [0x55, 0x00]).setFl 0x04) (fun t => (t.pc, t.status)) = some (256, .running) := by decide

/-- DM7, AL26, AL27, SK12, CT17. -/
theorem test_bad_register : after (runAt 0 [0x82, 0x08, 0x01]) faultView = some (.faulted, some (.addressOutOfRange .reg 8), 0) ∧
    after (runAt 0 [0xA0, 0x00, 0x08]) faultView = some (.faulted, some (.addressOutOfRange .reg 8), 0) ∧
    after (runAt 0 [0xA0, 0x09, 0x08]) faultView = some (.faulted, some (.addressOutOfRange .reg 9), 0) ∧
    after ((runAt 0 [0x45, 0x08]).setSp 0) faultView = some (.faulted, some (.addressOutOfRange .reg 8), 0) ∧
    after (runAt 0 [0x55, 0x09]) faultView = some (.faulted, some (.addressOutOfRange .reg 9), 0) := by decide

/-- R103: the ALU's answer to any other selector; the port codes of R171 and R159 for a fault of each kind. -/
theorem test_error_codes : alu .unsupported 1 2 = .error (.unsupportedAluOperation .unsupported) ∧
    errKindPort (boot []) = 0 ∧ errKindPort ((boot []).raised (.invalidOpcode 3 0)) = 1 ∧
    errKindPort ((boot []).raised (.addressOutOfRange .reg 8)) = 2 ∧
    errKindPort ((boot []).raised (.unsupportedAluOperation .unsupported)) = 3 ∧
    errKindPort ((boot []).raised .stackOverflow) = 4 ∧ errKindPort ((boot []).raised .stackUnderflow) = 5 ∧
    errSpacePort ((boot []).raised (.addressOutOfRange .reg 8)) = some 1 ∧ statusPort (boot []) = 1 := by decide

/-! The host (HO2 to HO8, W8) -/

theorem test_host_load_start : (hostLoad [0x82, 0x00, 0x08, 0x47, 0x00, 0x01] State.reset).mem
      = [(0, 0x82), (2, 0x08), (3, 0x47), (5, 0x01)] ∧
    (boot [0x82, 0x00, 0x08, 0x47, 0x00, 0x01]).status = .running ∧ hostStart (boot []) = boot [] := by decide

/-- HO4. -/
theorem test_host_load_too_long :
    hostLoad (ones 257) State.reset = State.reset.raised (.addressOutOfRange .mem 256) := by
  have h : (ones 257).length > Config.memSize := by rw [ones_length]; decide
  simp only [hostLoad, if_pos h]
  rfl

theorem test_host_observe : observe (boot []) = none ∧
    (observe ((boot [0x01]).setStatus .halted)).map (fun t => t.memByte 0) = some 0x01 := by decide

/-! Witnesses: a state and operands that meet the hypotheses of each statement, at the boundary values of each clause -/

/-- The states the clauses of `OneByteForm` are about: at 255, and at 256. -/
def oneByteStates (m : Mnemonic) : Bool :=
  let s := runAt 255 [Config.opcodeMap m]
  let t := runAt 256 []
  s.status == .running && s.pc.toNat == 255 && s.memByte 255 == Config.opcodeMap m &&
    t.status == .running && t.pc.toNat == 256

/-- The states the clauses of `TwoByteForm` are about: at 254, and at 255. -/
def twoByteStates (m : Mnemonic) : Bool :=
  [254, 255].all fun p =>
    let s := runAt p [Config.opcodeMap m]
    s.status == .running && s.pc.toNat == p && s.memByte p == Config.opcodeMap m

/-- The states the clauses of `ThreeByteForm` are about: at 253, at 254 and at 255. -/
def threeByteStates (m : Mnemonic) : Bool :=
  [253, 254, 255].all fun p =>
    let s := runAt p [Config.opcodeMap m]
    s.status == .running && s.pc.toNat == p && s.memByte p == Config.opcodeMap m

theorem witness_DecodeOfEncodeIsTheInstruction : OpcodesDistinct Config.opcodeMap ∧ OpcodesDistinct Config.opcodeMapDecAlt :=
  ⟨opcodeMap_distinct, opcodeMapDecAlt_distinct⟩

theorem witness_EncodeOfDecodeIsTheBytes :
    decodeWith Config.opcodeMap [0x84, 0x09, 0xFF, 0x01] = .ok (.st 0x09 0xFF, [0x01]) := by decide

theorem witness_InvalidOpcodeFaultsWithAddressAndByte : (runAt 255 [0xAA]).status = .running ∧
    (runAt 255 [0xAA]).pc.toNat ≤ 255 ∧ ∀ m, Config.opcodeMap m ≠ (runAt 255 [0xAA]).memByte (runAt 255 [0xAA]).pc.toNat :=
  ⟨by decide, by decide, fun m => by cases m <;> decide⟩

theorem witness_FetchAboveTopOfMemoryFaults : ((runAt 256 []).status = .running ∧ 255 < (runAt 256 []).pc.toNat) ∧
    ((runAt 254 [0x82]).status = .running ∧ (runAt 254 [0x82]).pc.toNat ≤ 255 ∧
      dispatchWith Config.opcodeMap ((runAt 254 [0x82]).memByte (runAt 254 [0x82]).pc.toNat) = some .ldi ∧
      256 < (runAt 254 [0x82]).pc.toNat + lengthOf .ldi) := by decide

theorem witness_StepRunsTheDecodedInstruction : (runAt 253 [0x84, 0x01, 0x02]).status = .running ∧
    decode (runAt 253 [0x84, 0x01, 0x02]).bytesFromPc = .ok (.st 1 2, []) := by decide

theorem witness_FetchReadsOnlyTheInstructionsBytes : (runAt 3 [0x47, 0x00]).pc.toNat ≤ 255 ∧
    fetchInstr Config.opcodeMap (runAt 3 [0x47, 0x00]) = .ok (.prn 0) ∧ 2 < (runAt 3 [0x47, 0x00]).pc.toNat ∧
    (runAt 3 [0x47, 0x00]).pc.toNat + Instr.length (.prn 0) ≤ 5 := by decide

theorem witness_NoStateChangesOutsideRunning : State.reset.status = .idle ∧
    ((boot []).setStatus .halted).status = .halted ∧ ((boot []).raised .stackOverflow).status = .faulted := by decide

theorem witness_FaultChangesOnlyStatusAndErr : (runAt 0 []).status = .running ∧
    stepWith Config.opcodeMap (runAt 0 []) = .next ((runAt 0 []).raised (.invalidOpcode 0 0)) ∧
    ((runAt 0 []).raised (.invalidOpcode 0 0)).status = .faulted := ⟨by decide, rfl, by decide⟩

theorem witness_RunningEndsOnlyByHltOrFault : (runAt 5 [0x01]).status = .running ∧
    stepWith Config.opcodeMap (runAt 5 [0x01]) = .next ((runAt 5 [0x01]).setStatus .halted) := ⟨by decide, rfl⟩

theorem witness_LdiLoadsTheImmediate : 7 < (8 : Byte).toNat ∧ OpcodesDistinct Config.opcodeMap ∧
    threeByteStates .ldi = true := ⟨by decide, opcodeMap_distinct, by decide⟩

theorem witness_StStoresRegBAtTheAddressInRegA : 7 < (8 : Byte).toNat ∧ (7 : Byte).toNat ≤ 7 ∧
    OpcodesDistinct Config.opcodeMap ∧ threeByteStates .st = true := ⟨by decide, by decide, opcodeMap_distinct, by decide⟩

theorem witness_MemReadGivesTheByteOrTheRangeError : 255 < (256 : Addr).toNat ∧ (255 : Addr).toNat ≤ 255 := by decide

theorem witness_MemWriteChangesOneByteOrIsARangeError : 255 < (256 : Addr).toNat ∧ (255 : Addr).toNat ≤ 255 ∧
    (runAt 0 [0x01]).mem.wf := by decide

/-- The state before the ST of program P6, which stores HLT's opcode at the next instruction's address. -/
theorem witness_StoredOpcodeIsFetchedByTheNextStep : OpcodesDistinct Config.opcodeMap ∧
    ((((runAt 6 [0x84, 0x00, 0x01, 0xFF]).setReg 0 9).setReg 1 0x01).status = .running ∧
      zext9 ((((runAt 6 [0x84, 0x00, 0x01, 0xFF]).setReg 0 9).setReg 1 0x01).getReg 0)
        = (((runAt 6 [0x84, 0x00, 0x01, 0xFF]).setReg 0 9).setReg 1 0x01).pc + 3 ∧
      (((runAt 6 [0x84, 0x00, 0x01, 0xFF]).setReg 0 9).setReg 1 0x01).getReg 1 = Config.opcodeMap .hlt) :=
  ⟨opcodeMap_distinct, by decide⟩

theorem witness_AddWritesTheSumModulo256 : 7 < (8 : Byte).toNat ∧ (7 : Byte).toNat ≤ 7 ∧
    OpcodesDistinct Config.opcodeMap ∧ threeByteStates .add = true := ⟨by decide, by decide, opcodeMap_distinct, by decide⟩

theorem witness_DecWritesTheDifferenceModulo256 : 7 < (8 : Byte).toNat ∧ (7 : Byte).toNat ≤ 7 ∧
    OpcodesDistinct Config.opcodeMap ∧ threeByteStates .dec = true := ⟨by decide, by decide, opcodeMap_distinct, by decide⟩

theorem witness_MulWritesTheProductModulo256 : 7 < (8 : Byte).toNat ∧ (7 : Byte).toNat ≤ 7 ∧
    OpcodesDistinct Config.opcodeMap ∧ threeByteStates .mul = true := ⟨by decide, by decide, opcodeMap_distinct, by decide⟩

theorem witness_DecThenAddRestoresTheRegister : (0 : RegIndex) ≠ 7 := by decide

theorem witness_UnsupportedAluOperationIsUnreachable : (runAt 0 [0xA0, 0, 1]).err = none ∧
    exec (.hlt) (runAt 0 [0xA0, 0, 1]) = .next ((runAt 0 [0xA0, 0, 1]).setStatus .halted) ∧
    stepWith Config.opcodeMap State.reset = .next State.reset ∧ State.reset.err = none := ⟨by decide, rfl, rfl, by decide⟩

theorem witness_CmpSetsExactlyOneFlag : ((boot []).getReg 0).toNat < ((boot []).getReg 7).toNat ∧
    ((boot []).getReg 7).toNat > ((boot []).getReg 0).toNat ∧ ((boot []).getReg 0).toNat = ((boot []).getReg 1).toNat ∧
    7 < (8 : Byte).toNat ∧ (7 : Byte).toNat ≤ 7 ∧ OpcodesDistinct Config.opcodeMap ∧ threeByteStates .cmp = true :=
  ⟨by decide, by decide, by decide, by decide, by decide, opcodeMap_distinct, by decide⟩

theorem witness_OnlyCmpWritesTheFlags : Instr.mnemonic (.jmp 0) ≠ .cmp ∧
    exec (.jmp 0) (boot []) = .next ((boot []).loadPc 0) := ⟨by decide, rfl⟩

theorem witness_OnlyJeqAndJneReadAFlagAndOnlyEqual : Instr.mnemonic (.jeq 0) ≠ .cmp ∧
    (0xFE : Byte).getLsbD 0 = (boot []).fl.getLsbD 0 ∧ exec (.jeq 0) (boot []) = .next ((boot []).advancePc 2) :=
  ⟨by decide, by decide, rfl⟩

theorem witness_PushStoresBelowTheStackPointer : ((boot []).setSp 1).sp ≠ 0 ∧ ((boot []).setSp 0).sp = 0 ∧
    7 < (8 : Byte).toNat ∧ OpcodesDistinct Config.opcodeMap ∧ twoByteStates .push = true :=
  ⟨by decide, by decide, by decide, opcodeMap_distinct, by decide⟩

theorem witness_PopLoadsTheTopOfStack : (6 : RegIndex) ≠ 7 ∧ ((boot []).setSp 254).sp ≠ 255 ∧
    (poke (boot []) 0xF4 254).memByte (poke (boot []) 0xF4 254).sp.toNat ≠ 255 ∧ ((boot []).setSp 255).sp = 255 ∧
    (poke (boot []) 0xF4 255).memByte (poke (boot []) 0xF4 255).sp.toNat = 255 ∧ 7 < (8 : Byte).toNat ∧
    OpcodesDistinct Config.opcodeMap ∧ twoByteStates .pop = true :=
  ⟨by decide, by decide, by decide, by decide, by decide, by decide, opcodeMap_distinct, by decide⟩

theorem witness_PushThenPopMovesTheRegister : (6 : RegIndex) ≠ 7 ∧ (0 : RegIndex) ≠ 7 ∧ 1 ≤ ((boot []).setSp 1).sp.toNat := by
  decide

theorem witness_OnlyStackInstructionsReportStackErrors :
    (((boot []).setSp 0).err = none ∧
      exec (.push 0) ((boot []).setSp 0) = .next (((boot []).setSp 0).raised .stackOverflow) ∧
      (((boot []).setSp 0).raised .stackOverflow).err = some .stackOverflow) ∧
    (((boot []).setSp 255).err = none ∧
      exec .ret ((boot []).setSp 255) = .next (((boot []).setSp 255).raised .stackUnderflow) ∧
      (((boot []).setSp 255).raised .stackUnderflow).err = some .stackUnderflow) :=
  ⟨⟨by decide, rfl, by decide⟩, ⟨by decide, rfl, by decide⟩⟩

theorem witness_CallPushesTheReturnAddressAndJumps : ((runAt 253 []).setSp 1).sp ≠ 0 ∧
    ((runAt 253 []).setSp 1).pc.toNat ≤ 253 ∧ ((runAt 254 []).setSp 0).sp = 0 ∧ ((runAt 254 []).setSp 1).sp ≠ 0 ∧
    ((runAt 254 []).setSp 1).pc.toNat = 254 ∧ 7 < (8 : Byte).toNat ∧ OpcodesDistinct Config.opcodeMap ∧
    twoByteStates .call = true :=
  ⟨by decide, by decide, by decide, by decide, by decide, by decide, opcodeMap_distinct, by decide⟩

theorem witness_RetPopsTheProgramCounter : ((boot []).setSp 254).sp ≠ 255 ∧ ((boot []).setSp 255).sp = 255 ∧
    OpcodesDistinct Config.opcodeMap ∧ oneByteStates .ret = true := ⟨by decide, by decide, opcodeMap_distinct, by decide⟩

theorem witness_JmpLoadsTheProgramCounter : 7 < (8 : Byte).toNat ∧ OpcodesDistinct Config.opcodeMap ∧
    twoByteStates .jmp = true := ⟨by decide, opcodeMap_distinct, by decide⟩

theorem witness_JeqJumpsWhenEqualIsSet : ((boot []).setFl 0x01).fl.getLsbD 0 = true ∧
    ((boot []).setFl 0xFE).fl.getLsbD 0 = false ∧ 7 < (8 : Byte).toNat ∧ OpcodesDistinct Config.opcodeMap ∧
    twoByteStates .jeq = true := ⟨by decide, by decide, by decide, opcodeMap_distinct, by decide⟩

theorem witness_JneJumpsWhenEqualIsClear : ((boot []).setFl 0xFE).fl.getLsbD 0 = false ∧
    ((boot []).setFl 0x01).fl.getLsbD 0 = true ∧ 7 < (8 : Byte).toNat ∧ OpcodesDistinct Config.opcodeMap ∧
    twoByteStates .jne = true := ⟨by decide, by decide, by decide, opcodeMap_distinct, by decide⟩

/-- A CALL at 6 from a stack pointer of 1, with a subroutine that changes nothing before its RET. -/
theorem witness_CallThenRetComesBack : ∃ t, (((runAt 6 []).setSp 1).pc.toNat ≤ 253 ∧ 1 ≤ ((runAt 6 []).setSp 1).sp.toNat ∧
    exec (.call (regByte 1)) ((runAt 6 []).setSp 1) = .next t) ∧ t.sp = t.sp ∧
    t.memByte t.sp.toNat = t.memByte t.sp.toNat := ⟨_, ⟨by decide, by decide, rfl⟩, rfl, rfl⟩

/-- P7j: JMP R0 at 3 with 3 in R0. -/
theorem witness_JumpToItselfRunsForever : OpcodesDistinct Config.opcodeMap ∧ (((runAt 3 [0x54, 0x00]).setReg 0 3).status = .running ∧
    ((runAt 3 [0x54, 0x00]).setReg 0 3).pc.toNat ≤ 254 ∧
    ((runAt 3 [0x54, 0x00]).setReg 0 3).memByte ((runAt 3 [0x54, 0x00]).setReg 0 3).pc.toNat = Config.opcodeMap .jmp ∧
    ((runAt 3 [0x54, 0x00]).setReg 0 3).memByte (((runAt 3 [0x54, 0x00]).setReg 0 3).pc.toNat + 1) = regByte 0 ∧
    (((runAt 3 [0x54, 0x00]).setReg 0 3).getReg 0).toNat = ((runAt 3 [0x54, 0x00]).setReg 0 3).pc.toNat) := ⟨opcodeMap_distinct, by decide⟩

theorem witness_HltHaltsAndKeepsEverythingElse : HostOp.start ≠ HostOp.reset ∧ OpcodesDistinct Config.opcodeMap ∧
    oneByteStates .hlt = true := ⟨by decide, opcodeMap_distinct, by decide⟩

theorem witness_PrnEmitsTheRegister : 7 < (8 : Byte).toNat ∧ OpcodesDistinct Config.opcodeMap ∧
    twoByteStates .prn = true := ⟨by decide, opcodeMap_distinct, by decide⟩

theorem witness_OnlyPrnExtendsTheOutput : Instr.mnemonic .hlt ≠ .prn ∧
    exec .hlt (boot []) = .next ((boot []).setStatus .halted) ∧
    exec (.prn 0) (boot []) = .next (((boot []).emit 0).advancePc 2) := ⟨by decide, rfl, rfl⟩

theorem witness_NoInstructionReadsTheOutput : exec (.prn 0) (boot []) = .next (((boot []).emit 0).advancePc 2) := rfl

theorem witness_RegistersNotNamedAreKept : exec (.ldi 0 9) (boot []) = .next (((boot []).setReg 0 9).advancePc 3) ∧
    ¬ MayWriteReg (.ldi 0 9) 1 := ⟨rfl, by unfold MayWriteReg; decide⟩

theorem witness_MemoryOutsideTheStoredByteIsKept : ∃ t, exec (.push 0) (boot []) = .next t ∧
    storeAddress (.push 0) (boot []) ≠ some 0xF4 := ⟨_, rfl, by decide⟩

theorem witness_FirstBadRegisterOperandIsReported :
    (Instr.regOperands (.jeq 8)).find? (fun o => 7 < o.toNat) = some 8 ∧
    (Instr.regOperands (.add 7 255)).find? (fun o => 7 < o.toNat) = some 255 := by decide

theorem witness_OnlyCallReportsAMemoryAddressPastTheFetch : (runAt 254 []).err = none ∧
    exec (.call 1) (runAt 254 []) = .next ((runAt 254 []).raised (.addressOutOfRange .mem 256)) ∧
    ((runAt 254 []).raised (.addressOutOfRange .mem 256)).err = some (.addressOutOfRange .mem 256) :=
  ⟨by decide, rfl, by decide⟩

theorem witness_ResetLeavesTheResetValues : (6 : RegIndex) ≠ 7 := by decide

theorem witness_LoadDepositsTheImage : State.reset.status = .idle ∧ (ones 256).length ≤ 256 ∧
    255 < (ones 256).length ∧ (ones 255).length ≤ 255 ∧
    256 < (ones 257).length ∧ (boot []).status ≠ .idle :=
  by simp only [ones_length]; decide

theorem witness_BootLeavesTheLaunchState : (ones 256).length ≤ 256 ∧
    255 < (ones 256).length ∧ (ones 255).length ≤ 255 ∧ (6 : RegIndex) ≠ 7 :=
  by simp only [ones_length]; decide

theorem witness_StartActsOnlyInIdle : State.reset.status = .idle ∧ (boot []).status ≠ .idle := by decide

theorem witness_EndedCoreChangesOnlyByReset : ((boot []).setStatus .halted).Ended ∧
    ((boot []).raised .stackOverflow).Ended ∧ HostOp.start ≠ HostOp.reset := ⟨.inl rfl, .inr rfl, by decide⟩

theorem witness_ResetMeetsTheInvariant : Config.resetFl = 0x00 ∨ Config.resetFl = 0x01 ∨ Config.resetFl = 0x02 ∨
    Config.resetFl = 0x04 := by decide

/-- A Running state in the middle of a run, with memory, flags and output. -/
theorem witness_EveryStepKeepsTheInvariant : Inv Config.opcodeMap ((runAt 253 [0x84, 0x01, 0x02]).setFl 0x04) ∧
    ∃ t, stepWith Config.opcodeMap ((runAt 253 [0x84, 0x01, 0x02]).setFl 0x04) = .next t :=
  ⟨⟨by decide, by decide, by decide, by unfold ErrMatchesStatus; decide, trivial⟩, _, rfl⟩

theorem witness_HostOperationsKeepTheInvariant : Inv Config.opcodeMap ((boot [0x01]).setStatus .halted) :=
  ⟨by decide, by decide, by decide, by unfold ErrMatchesStatus; decide, trivial⟩

theorem witness_ReachableStatesMeetTheInvariant : Reachable (boot [0x82, 0x00, 0x08]) :=
  .host .start (.host (.load [0x82, 0x00, 0x08]) .reset)

theorem witness_ErrIsWrittenAtMostOnceBetweenResets :
    Inv Config.opcodeMap ((boot []).raised (.addressOutOfRange .reg 8)) ∧
    ((boot []).raised (.addressOutOfRange .reg 8)).err = some (.addressOutOfRange .reg 8) ∧
    (∃ t, stepWith Config.opcodeMap ((boot []).raised (.addressOutOfRange .reg 8)) = .next t) ∧
    HostOp.start ≠ HostOp.reset :=
  ⟨⟨by decide, by decide, by decide, by unfold ErrMatchesStatus; decide, show 8 ≤ (8 : Addr).toNat ∧ (8 : Addr).toNat ≤ 255 by decide⟩, by decide,
    ⟨_, rfl⟩, by decide⟩

end Sys2Proof.Tests
end

/-! Family 10_state: the frames of the instructions, what no instruction reads, and the invariant of reachable states. -/

namespace Sys2Proof.Machine

/-! The frame of a completed instruction -/

/-- What each field of the state can be after an instruction completes: as before, or the one change an instruction of
its kind makes. -/
structure CompletionFrame (i : Instr) (s t : State) : Prop where
  err : t.err = s.err
  status : t.status = s.status ∨ i = .hlt ∧ t.status = .halted
  fl : t.fl = s.fl ∨ i.mnemonic = .cmp ∧ ∃ a b, t.fl = compareFlags a b
  out : t.out = s.out ∨ i.mnemonic = .prn ∧ ∃ v, t.out = s.out ++ [v]
  mem : t.mem = s.mem ∨ ∃ a v, storeAddress i s = some a ∧ a < Config.memSize ∧ t.mem = s.mem.set a v
  pc : t.pc = s.pc ∨ t.pc = s.pc + BitVec.ofNat 9 i.length ∨ ∃ v, t.pc = zext9 v
  reg : ∀ k, ¬ MayWriteReg i k → t.getReg k = s.getReg k

theorem State.getReg_setReg_of_regByte_ne (s : State) {r k : RegIndex} (v : Byte) (h : regByte r ≠ regByte k) :
    (s.setReg r v).getReg k = s.getReg k :=
  s.getReg_setReg_ne v fun hk => h (by rw [hk])

theorem State.getReg_setSp_ne (s : State) {k : RegIndex} (v : Byte) (h : k ≠ 7) : (s.setSp v).getReg k = s.getReg k :=
  s.getReg_setReg_ne v h

theorem byte_toNat_lt_memSize (v : Byte) : v.toNat < Config.memSize := v.isLt

theorem byte_toNat_sub_one_lt_memSize (v : Byte) : v.toNat - 1 < Config.memSize :=
  (Nat.sub_le _ _).trans_lt (byte_toNat_lt_memSize v)

@[simp] theorem storeAddress_st_regByte (r : RegIndex) (o2 : Byte) (s : State) :
    storeAddress (.st (regByte r) o2) s = some (s.getReg r).toNat := by
  simp [storeAddress]

theorem loadPc_frame (i : Instr) (s : State) (v : Byte) : CompletionFrame i s (s.loadPc v) :=
  ⟨rfl, .inl rfl, .inl rfl, .inl rfl, .inl rfl, .inr (.inr ⟨_, rfl⟩), fun _ _ => rfl⟩

theorem advancePc_frame {i : Instr} {n : Nat} (s : State) (hn : i.length = n) : CompletionFrame i s (s.advancePc n) :=
  ⟨rfl, .inl rfl, .inl rfl, .inl rfl, .inl rfl, .inr (.inl (by rw [hn]; rfl)), fun _ _ => rfl⟩

theorem ExecDone.frame {i : Instr} {s t : State} (h : ExecDone i s t) : CompletionFrame i s t := by
  cases i with
  | ldi o1 o2 =>
    obtain ⟨r, rfl, rfl⟩ := h
    exact ⟨rfl, .inl rfl, .inl rfl, .inl rfl, .inl rfl, .inr (.inl rfl), fun _ => s.getReg_setReg_of_regByte_ne _⟩
  | add o1 o2 | dec o1 o2 | mul o1 o2 =>
    obtain ⟨r1, r2, rfl, rfl, rfl⟩ := h
    exact ⟨rfl, .inl rfl, .inl rfl, .inl rfl, .inl rfl, .inr (.inl rfl), fun _ => s.getReg_setReg_of_regByte_ne _⟩
  | prn o1 =>
    obtain ⟨r, rfl, rfl⟩ := h
    exact ⟨rfl, .inl rfl, .inl rfl, .inr ⟨rfl, _, rfl⟩, .inl rfl, .inr (.inl rfl), fun _ _ => rfl⟩
  | hlt =>
    cases h
    exact ⟨rfl, .inr ⟨rfl, rfl⟩, .inl rfl, .inl rfl, .inl rfl, .inl rfl, fun _ _ => rfl⟩
  | push o1 =>
    obtain ⟨r, rfl, -, rfl⟩ := h
    exact ⟨rfl, .inl rfl, .inl rfl, .inl rfl, .inr ⟨_, _, rfl, byte_toNat_sub_one_lt_memSize _, rfl⟩, .inr (.inl rfl),
      fun _ => s.getReg_setSp_ne _⟩
  | pop o1 =>
    obtain ⟨r, rfl, ⟨-, -, rfl⟩ | ⟨-, -, rfl⟩⟩ := h
    · exact ⟨rfl, .inl rfl, .inl rfl, .inl rfl, .inl rfl, .inr (.inl rfl),
        fun _ hk => s.getReg_setSp_ne _ (not_or.mp hk).2⟩
    · exact ⟨rfl, .inl rfl, .inl rfl, .inl rfl, .inl rfl, .inr (.inl rfl), fun _ hk =>
        (State.getReg_setSp_ne _ _ (not_or.mp hk).2).trans (s.getReg_setReg_of_regByte_ne _ (not_or.mp hk).1)⟩
  | call o1 =>
    obtain ⟨r, rfl, -, -, rfl⟩ := h
    exact ⟨rfl, .inl rfl, .inl rfl, .inl rfl, .inr ⟨_, _, rfl, byte_toNat_sub_one_lt_memSize _, rfl⟩,
      .inr (.inr ⟨_, rfl⟩), fun _ => s.getReg_setSp_ne _⟩
  | ret =>
    obtain ⟨-, rfl⟩ := h
    exact ⟨rfl, .inl rfl, .inl rfl, .inl rfl, .inl rfl, .inr (.inr ⟨_, rfl⟩), fun _ => s.getReg_setSp_ne _⟩
  | st o1 o2 =>
    obtain ⟨r1, r2, rfl, rfl, rfl⟩ := h
    exact ⟨rfl, .inl rfl, .inl rfl, .inl rfl,
      .inr ⟨_, _, storeAddress_st_regByte r1 _ s, byte_toNat_lt_memSize _, rfl⟩, .inr (.inl rfl), fun _ _ => rfl⟩
  | cmp o1 o2 =>
    obtain ⟨r1, r2, rfl, rfl, rfl⟩ := h
    exact ⟨rfl, .inl rfl, .inr ⟨rfl, _, _, rfl⟩, .inl rfl, .inl rfl, .inr (.inl rfl), fun _ _ => rfl⟩
  | jmp o1 =>
    obtain ⟨r, rfl, rfl⟩ := h
    exact loadPc_frame _ s _
  | jeq o1 =>
    obtain ⟨r, rfl, rfl⟩ := h
    split
    · exact loadPc_frame _ s _
    · exact advancePc_frame s rfl
  | jne o1 =>
    obtain ⟨r, rfl, rfl⟩ := h
    split
    · exact advancePc_frame s rfl
    · exact loadPc_frame _ s _

/-- Settles O24: a fault keeps the flags, and so does every completion but CMP's. -/
theorem onlyCmpWritesTheFlags : Obligations.OnlyCmpWritesTheFlags := by
  intro i s t hi h
  rcases exec_next h with ⟨e, -, rfl⟩ | hd
  · rfl
  · exact hd.frame.fl.resolve_right fun hc => hi hc.1

/-- Settles O39: a fault keeps OUT, and so does every completion but PRN's, which appends one byte. -/
theorem onlyPrnExtendsTheOutput : Obligations.OnlyPrnExtendsTheOutput := by
  intro i s t h
  rcases exec_next h with ⟨e, -, rfl⟩ | hd
  · exact ⟨fun _ => rfl, .inl rfl⟩
  · exact ⟨fun hi => hd.frame.out.resolve_right fun hp => hi hp.1, hd.frame.out.imp_right And.right⟩

/-- Settles O41: a fault keeps every register, a completion every register it is not said to write. -/
theorem registersNotNamedAreKept : Obligations.RegistersNotNamedAreKept := by
  intro i s t r h hr
  rcases exec_next h with ⟨e, -, rfl⟩ | hd
  · rfl
  · exact hd.frame.reg r hr

/-! Which fault is taken -/

/-- Settles O29: a completion keeps ERR at None, and each fault of a meaning names the instructions it belongs to. -/
theorem onlyStackInstructionsReportStackErrors : Obligations.OnlyStackInstructionsReportStackErrors := by
  intro i s t hs h
  rcases exec_next h with ⟨e, hf, rfl⟩ | hd
  · rcases hf with ⟨o, -, rfl⟩ | ⟨hi, hsp, rfl⟩ | ⟨-, -, rfl⟩ | ⟨hi, rfl⟩
    · simp
    · simp [hi, hsp]
    · simp
    · simp [hi]
  · simp [hd.frame.err, hs]

theorem withReg_takesFirstBad {o1 o : Byte} (s : State) (k : RegIndex → Result)
    (h : [o1].find? (fun o => 7 < o.toNat) = some o) :
    TakesFault (withReg o1 s k) s (.addressOutOfRange .reg (zext9 o)) := by
  have habove : 7 < o.toNat := by simpa using List.find?_some h
  obtain rfl : o = o1 := by simpa using List.mem_of_find?_eq_some h
  exact withReg_above s k habove

theorem withRegs_takesFirstBad {o1 o2 o : Byte} (s : State) (k : RegIndex → RegIndex → Result)
    (h : [o1, o2].find? (fun o => 7 < o.toNat) = some o) :
    TakesFault (withRegs o1 o2 s k) s (.addressOutOfRange .reg (zext9 o)) := by
  cases h1 : regIdx o1 with
  | error e =>
    have habove := (regIdx_error h1).1
    rw [find?_above_cons _ habove] at h
    cases h
    exact withRegs_above_first o2 s k habove
  | ok r1 =>
    obtain rfl := regIdx_ok h1
    rw [find?_regByte_cons] at h
    simpa [withRegs, withReg] using withReg_takesFirstBad s (k r1) h

/-- Settles O43: each meaning begins with the check of its register operands, in operand order. -/
theorem firstBadRegisterOperandIsReported : Obligations.FirstBadRegisterOperandIsReported := by
  intro i s o h
  cases i with
  | ldi o1 _ | prn o1 | push o1 | pop o1 | call o1 | jmp o1 | jeq o1 | jne o1 => exact withReg_takesFirstBad s _ h
  | add o1 o2 | dec o1 o2 | mul o1 o2 | st o1 o2 | cmp o1 o2 => exact withRegs_takesFirstBad s _ h
  | hlt | ret => cases h

/-! What no instruction reads -/

/-- A change of the state that the operations of an instruction do not see: each reads the same before and after it, and
each update can be made before it or after it. Updates and reads of the flags are left out. -/
structure Unseen (g : State → State) : Prop where
  getReg : ∀ s r, (g s).getReg r = s.getReg r
  pc : ∀ s, (g s).pc = s.pc
  memByte : ∀ s a, (g s).memByte a = s.memByte a
  raised : ∀ s e, (g s).raised e = g (s.raised e)
  setReg : ∀ s r v, (g s).setReg r v = g (s.setReg r v)
  stored : ∀ s a v, (g s).stored a v = g (s.stored a v)
  advancePc : ∀ s n, (g s).advancePc n = g (s.advancePc n)
  loadPc : ∀ s v, (g s).loadPc v = g (s.loadPc v)
  setStatus : ∀ s v, (g s).setStatus v = g (s.setStatus v)
  emit : ∀ s v, (g s).emit v = g (s.emit v)

/-- Other flags. -/
def State.withFlags (f : FlagBits) (s : State) : State := { s with fl := f }

/-- An earlier history in front of OUT. -/
def State.withHistory (earlier : List Byte) (s : State) : State := { s with out := earlier ++ s.out }

theorem unseen_withFlags (f : FlagBits) : Unseen (State.withFlags f) := by
  constructor <;> intros <;> rfl

theorem unseen_withHistory (earlier : List Byte) : Unseen (State.withHistory earlier) where
  getReg _ _ := rfl
  pc _ := rfl
  memByte _ _ := rfl
  raised _ _ := rfl
  setReg _ _ _ := rfl
  stored _ _ _ := rfl
  advancePc _ _ := rfl
  loadPc _ _ := rfl
  setStatus _ _ := rfl
  emit s v := by simp [State.withHistory, State.emit]

/-- What a meaning answers, with a change made to the next state. -/
def mapNext (g : State → State) : Result → Result
  | .next t => .next (g t)
  | .fault r => .fault r
  | .refused r => .refused r

@[simp] theorem mapNext_next (g : State → State) (t : State) : mapNext g (.next t) = .next (g t) := rfl

section
variable {g : State → State} (hg : Unseen g)
include hg

theorem Unseen.sp (s : State) : (g s).sp = s.sp := hg.getReg s _

theorem Unseen.setSp (s : State) (v : Byte) : (g s).setSp v = g (s.setSp v) := hg.setReg s _ v

theorem Unseen.returnAddress (s : State) : returnAddress (g s) = returnAddress s := by
  simp only [Machine.returnAddress, hg.pc]

/-- A check commutes with an unseen change when what follows it does. -/
theorem Unseen.orRaise {α : Type} (s : State) (v : Except ErrRecord α) {k k' : α → Result}
    (hk : ∀ a, k' a = mapNext g (k a)) : orRaise (g s) v k' = mapNext g (orRaise s v k) := by
  cases v with
  | error e => simp [hg.raised]
  | ok a => exact hk a

theorem Unseen.withReg (o : Byte) (s : State) {k k' : RegIndex → Result} (hk : ∀ r, k' r = mapNext g (k r)) :
    withReg o (g s) k' = mapNext g (withReg o s k) := hg.orRaise s _ hk

theorem Unseen.withRegs (o1 o2 : Byte) (s : State) {k k' : RegIndex → RegIndex → Result}
    (hk : ∀ r1 r2, k' r1 r2 = mapNext g (k r1 r2)) : withRegs o1 o2 (g s) k' = mapNext g (withRegs o1 o2 s k) :=
  hg.orRaise s _ fun r1 => hg.orRaise s _ (hk r1)

theorem Unseen.execAlu (m : Mnemonic) {op : AluOp} (hop : op ≠ .unsupported) (o1 o2 : Byte) (s : State) :
    execAlu m op o1 o2 (g s) = mapNext g (execAlu m op o1 o2 s) := by
  rw [execAlu_eq m hop, execAlu_eq m hop]
  exact hg.withRegs o1 o2 s fun r1 r2 => by simp [hg.getReg, hg.setReg, hg.advancePc]

theorem Unseen.execBranch (m : Mnemonic) (taken : Bool) (o1 : Byte) (s : State) :
    execBranch m taken o1 (g s) = mapNext g (execBranch m taken o1 s) :=
  hg.withReg o1 s fun r => by cases taken <;> simp [hg.getReg, hg.loadPc, hg.advancePc]

/-- Every instruction commutes with an unseen change: CMP where the change also commutes with its write of the flags, JEQ
and JNE where it keeps the Equal bit. -/
theorem Unseen.exec {i : Instr} {s : State} (hcmp : i.mnemonic = .cmp → ∀ u v, (g u).setFl v = g (u.setFl v))
    (hjump : i.mnemonic = .jeq ∨ i.mnemonic = .jne → (g s).flE = s.flE) : exec i (g s) = mapNext g (exec i s) := by
  cases i with
  | ldi o1 o2 => exact hg.withReg o1 s fun r => by simp [hg.setReg, hg.advancePc]
  | prn o1 => exact hg.withReg o1 s fun r => by simp [hg.getReg, hg.emit, hg.advancePc]
  | hlt => exact congrArg Host.Outcome.next (hg.setStatus s .halted)
  | add o1 o2 => exact hg.execAlu .add (by decide) o1 o2 s
  | dec o1 o2 => exact hg.execAlu .dec (by decide) o1 o2 s
  | mul o1 o2 => exact hg.execAlu .mul (by decide) o1 o2 s
  | push o1 =>
    simp only [Machine.exec, execPush_eq, hg.sp]
    exact hg.withReg o1 s fun r => hg.orRaise s _ fun v => by simp [hg.setSp, hg.getReg, hg.stored, hg.advancePc]
  | pop o1 =>
    simp only [Machine.exec, execPop_eq, hg.sp, hg.memByte]
    refine hg.withReg o1 s fun r => ?_
    split
    · exact hg.orRaise s _ fun p => by simp [hg.setSp, hg.advancePc]
    · exact hg.orRaise s _ fun p => by simp [hg.setReg, hg.setSp, hg.advancePc]
  | call o1 =>
    simp only [Machine.exec, execCall_eq, hg.sp, hg.returnAddress]
    exact hg.withReg o1 s fun r => hg.orRaise s _ fun v => hg.orRaise s _ fun ret => by
      simp [hg.setSp, hg.getReg, hg.stored, hg.loadPc]
  | ret =>
    simp only [Machine.exec, execRet_eq, hg.sp, hg.memByte]
    exact hg.orRaise s _ fun p => by simp [hg.loadPc, hg.setSp]
  | st o1 o2 =>
    simp only [Machine.exec, execSt_eq]
    exact hg.withRegs o1 o2 s fun r1 r2 => by simp [hg.getReg, hg.stored, hg.advancePc]
  | cmp o1 o2 => exact hg.withRegs o1 o2 s fun r1 r2 => by simp [hg.getReg, hcmp rfl, hg.advancePc]
  | jmp o1 => exact hg.withReg o1 s fun r => by simp [hg.getReg, hg.loadPc]
  | jeq o1 =>
    simp only [Machine.exec, execJeq, hjump (.inl rfl)]
    exact hg.execBranch .jeq _ o1 s
  | jne o1 =>
    simp only [Machine.exec, execJne, hjump (.inr rfl)]
    exact hg.execBranch .jne _ o1 s

end

/-- Settles O25: other flags are a change that no instruction but CMP, JEQ and JNE sees, and CMP overwrites them. -/
theorem onlyJeqAndJneReadAFlagAndOnlyEqual : Obligations.OnlyJeqAndJneReadAFlagAndOnlyEqual := by
  refine ⟨fun i s t f hi hE h => ?_, fun r1 r2 s f => ?_⟩
  · have hmap := (unseen_withFlags f).exec (s := s) (fun hc => absurd hc hi) hE
    rwa [h] at hmap
  · simp only [exec, execCmp, withRegs_regByte]
    rfl

/-- Settles O40: a longer history is a change that no instruction sees. -/
theorem noInstructionReadsTheOutput : Obligations.NoInstructionReadsTheOutput := by
  intro i s t earlier h
  have hmap := (unseen_withHistory earlier).exec (i := i) (s := s) (fun _ _ _ => rfl) fun _ => rfl
  rwa [h] at hmap

/-! Reset and the host -/

theorem State.getReg_resetWith (gpr : Byte) (fl : FlagBits) (r : RegIndex) :
    (State.resetWith gpr fl).getReg r = if r = Config.spIndex then Config.spReset else gpr := by
  fin_cases r <;> rfl

/-- Settles O45: Reset answers the reset state, whose registers `getReg_resetWith` gives. -/
theorem resetLeavesTheResetValues : Obligations.ResetLeavesTheResetValues := by
  intro s
  refine ⟨fun _ => rfl, State.getReg_resetWith _ _ 7, fun r hr => ?_, rfl, rfl, rfl, rfl, rfl, rfl⟩
  exact (State.getReg_resetWith _ _ r).trans (if_neg hr)

/-- Outside Idle the host changes the state only by Reset (R160). -/
theorem applyHostOp_notIdle {op : HostOp} {s : State} (hs : s.status ≠ .idle) (hop : op ≠ .reset) :
    applyHostOp op s = s := by
  cases op with
  | reset => exact absurd rfl hop
  | load image => exact if_neg hs
  | start => exact if_neg hs

/-- Settles O49: an ended core is neither Running, so no step is taken, nor Idle, so Load and Start are ignored. -/
theorem endedCoreChangesOnlyByReset : Obligations.EndedCoreChangesOnlyByReset := by
  intro map s hs
  have hidle : s.status ≠ .idle := by rcases hs with h | h <;> simp [h]
  have hrun : s.status ≠ .running := by rcases hs with h | h <;> simp [h]
  have hobs : observe s = some s := by rcases hs with h | h <;> simp [observe, h]
  exact ⟨stepWith_notRunning map hrun, fun _ => applyHostOp_notIdle hidle, hobs⟩

/-- Settles O11: a fetch or a meaning that faults leaves Faulted, and of the completions only HLT's changes STATUS. -/
theorem runningEndsOnlyByHltOrFault : Obligations.RunningEndsOnlyByHltOrFault := by
  intro map s t hs h
  rcases stepWith_next h with ⟨hn, -⟩ | ⟨-, e, -, rfl⟩ | ⟨-, i, hi, h⟩
  · exact absurd hs hn
  · exact .inr (.inr rfl)
  · rcases exec_next h with ⟨e, -, rfl⟩ | hd
    · exact .inr (.inr rfl)
    · rcases hd.frame.status with hst | ⟨rfl, hst⟩
      · exact .inl (hst.trans hs)
      · exact .inr (.inl ⟨hst, hi⟩)

/-! The invariant -/

/-- Settles O50: the empty memory is canonical, and neither side of the agreement of ERR and STATUS holds at reset. -/
theorem resetMeetsTheInvariant : Obligations.ResetMeetsTheInvariant := by
  intro map gpr fl hfl
  exact ⟨Memory.nil_wf, Nat.zero_le _, hfl, by simp [ErrMatchesStatus, State.resetWith], trivial⟩

theorem inv_reset (map : Mnemonic → Byte) : Inv map State.reset := resetMeetsTheInvariant map _ _ (.inl rfl)

/-- Taking a fault the machine can make keeps the invariant. -/
theorem Inv.raised {map : Mnemonic → Byte} {s : State} (hs : Inv map s) {e : ErrRecord} (he : ErrPossible map (some e)) :
    Inv map (s.raised e) where
  memCanonical := hs.memCanonical
  pcInRange := hs.pcInRange
  flOneHot := hs.flOneHot
  errStatus := by simp [ErrMatchesStatus]
  errPossible := he

theorem compareFlags_oneHot (a b : Byte) :
    compareFlags a b = 0x00 ∨ compareFlags a b = 0x01 ∨ compareFlags a b = 0x02 ∨ compareFlags a b = 0x04 := by
  rcases Nat.lt_trichotomy a.toNat b.toNat with h | h | h
  · simp [compareFlags_of_lt h]
  · obtain rfl := BitVec.eq_of_toNat_eq h
    simp [compareFlags_self]
  · simp [compareFlags_of_gt h]

theorem fetchFault_possible {map : Mnemonic → Byte} {s : State} {e : ErrRecord} (hpc : s.pc.toNat ≤ 256)
    (h : fetchInstr map s = .error e) : ErrPossible map (some e) := by
  rcases fetchInstr_error h with ⟨hgt, rfl⟩ | ⟨hle, hnone, rfl⟩ | ⟨-, rfl⟩
  · exact Nat.le_antisymm hpc hgt
  · exact ⟨hle, hnone⟩
  · rfl

/-- The faults of an instruction that lies whole in memory: CALL's return address is then at most 256. -/
theorem execFault_possible (map : Mnemonic → Byte) {i : Instr} {s : State} {e : ErrRecord}
    (hpc : s.pc.toNat + i.length ≤ 256) (h : ExecFaults i s e) : ErrPossible map (some e) := by
  rcases h with ⟨o, ho, rfl⟩ | ⟨-, -, rfl⟩ | ⟨hi, hgt, rfl⟩ | ⟨-, rfl⟩
  · have habove : 7 < o.toNat := by simpa using List.find?_some ho
    have hbyte := o.isLt
    show 8 ≤ (zext9 o).toNat ∧ (zext9 o).toNat ≤ 255
    rw [zext9_toNat]
    omega
  · trivial
  · have hlen : i.length = 2 := by rw [Instr.length, hi, lengthOf_call]
    have hadd : (s.pc + 2).toNat = s.pc.toNat + 2 := pc_add_toNat (k := 2) (by omega) (by omega)
    show (s.pc + 2).toNat = 256
    omega
  · trivial

/-- A completed instruction that lies whole in memory keeps the invariant in a Running core. -/
theorem ExecDone.inv {map : Mnemonic → Byte} {i : Instr} {s t : State} (hs : Inv map s) (hrun : s.status = .running)
    (hpc : s.pc.toNat + i.length ≤ 256) (h : ExecDone i s t) : Inv map t := by
  obtain ⟨herr, hstatus, hfl, -, hmem, hnext, -⟩ := h.frame
  have hnoErr : ¬ s.err.isSome := fun he => by simpa [hrun] using hs.errStatus.mp he
  refine ⟨?_, ?_, ?_, ?_, by rw [herr]; exact hs.errPossible⟩
  · rcases hmem with hm | ⟨a, v, -, ha, hm⟩
    · rw [hm]
      exact hs.memCanonical
    · rw [hm]
      exact Memory.set_wf v hs.memCanonical ha
  · rcases hnext with hp | hp | ⟨v, hp⟩
    · rw [hp]
      exact hs.pcInRange
    · rw [hp, pc_add_toNat hs.pcInRange (Laws.Encoding.length_bounds i).2]
      exact hpc
    · rw [hp, zext9_toNat]
      exact v.isLt.le
  · rcases hfl with hf | ⟨-, a, b, hf⟩
    · rw [hf]
      exact hs.flOneHot
    · rw [hf]
      exact compareFlags_oneHot a b
  · have hnotFaulted : t.status ≠ .faulted := by
      rcases hstatus with hst | ⟨-, hst⟩ <;> simp [hst, hrun]
    exact ⟨fun he => absurd (herr ▸ he) hnoErr, fun hf => absurd hf hnotFaulted⟩

/-- Settles O51: outside Running nothing changes; a fault of the fetch or of the meaning is one the machine can make; and a
completion keeps each part of the invariant, since the instruction fetched lies whole in memory. -/
theorem everyStepKeepsTheInvariant : Obligations.EveryStepKeepsTheInvariant := by
  intro map s t hs h
  rcases stepWith_next h with ⟨-, rfl⟩ | ⟨-, e, he, rfl⟩ | ⟨hrun, i, hi, h⟩
  · exact hs
  · exact hs.raised (fetchFault_possible hs.pcInRange he)
  · obtain ⟨-, hpc, -⟩ := fetchInstr_ok hi
    rcases exec_next h with ⟨e, he, rfl⟩ | hd
    · exact hs.raised (execFault_possible map hpc he)
    · exact hd.inv hs hrun hpc

theorem inv_hostLoad {map : Mnemonic → Byte} (image : List Byte) {s : State} (hs : Inv map s) :
    Inv map (hostLoad image s) := by
  unfold hostLoad
  split
  · split
    · exact hs.raised (by rfl)
    · exact { hs with memCanonical := Memory.writeBytes_wf 0 image hs.memCanonical }
  · exact hs

theorem inv_hostStart {map : Mnemonic → Byte} {s : State} (hs : Inv map s) : Inv map (hostStart s) := by
  unfold hostStart
  split
  · rename_i hidle
    have herr : ErrMatchesStatus (s.setStatus .running) := by
      have := hs.errStatus
      simpa [ErrMatchesStatus, hidle] using this
    exact { hs with errStatus := herr }
  · exact hs

/-- Settles O52: one lemma for each dealing of the host. -/
theorem hostOperationsKeepTheInvariant : Obligations.HostOperationsKeepTheInvariant := by
  intro map op s hs
  cases op with
  | reset => exact inv_reset map
  | load image => exact inv_hostLoad image hs
  | start => exact inv_hostStart hs

/-- Settles O53, by induction on how the state is reached. -/
theorem reachableStatesMeetTheInvariant : Obligations.ReachableStatesMeetTheInvariant := by
  intro s hs
  induction hs with
  | reset => exact inv_reset _
  | host op _ ih => exact hostOperationsKeepTheInvariant _ op _ ih
  | step _ h ih => exact everyStepKeepsTheInvariant _ _ _ ih h

/-- Settles O54: with a record in ERR the core is Faulted, so neither a step nor the host changes it. -/
theorem errIsWrittenAtMostOnceBetweenResets : Obligations.ErrIsWrittenAtMostOnceBetweenResets := by
  intro map s e hs he
  have hfaulted : s.status = .faulted := hs.errStatus.mp (by simp [he])
  obtain ⟨hstep, hhost, -⟩ := endedCoreChangesOnlyByReset map s (.inr hfaulted)
  refine ⟨fun t h => ?_, fun op hop => by rw [hhost op hop, he]⟩
  obtain rfl : s = t := by simpa [hstep] using h
  exact he

end Sys2Proof.Machine

/-! Family 20_memory: the two accesses of memory, the one byte an instruction can store, and a store the next fetch sees. -/

namespace Sys2Proof.Machine

/-! Reading and writing memory -/

/-- Settles O14: `memRead` in its two cases, an address inside memory and one above it. -/
theorem memReadGivesTheByteOrTheRangeError : Obligations.MemReadGivesTheByteOrTheRangeError :=
  fun s _ => ⟨memRead_outOfRange s, memRead_inRange s⟩

theorem memRead_stored_self (s : State) {addr : Addr} (v : Byte) (h : addr.toNat ≤ 255) :
    memRead (s.stored addr.toNat v) addr = .ok v := by
  rw [memRead_inRange _ h, State.stored_memByte, if_pos rfl]

theorem stored_memKeptBut (s : State) (a : Nat) (v : Byte) : MemKeptBut [a] s (s.stored a v) := by
  intro k hk
  rw [State.stored_memByte, if_neg (by simpa using hk)]

/-- Settles O15: in range `memWrite` answers the state `stored`, whose memory is `Memory.set`. -/
theorem memWriteChangesOneByteOrIsARangeError : Obligations.MemWriteChangesOneByteOrIsARangeError := by
  intro s addr v
  refine ⟨memWrite_outOfRange s v, fun h => ⟨s.stored addr.toNat v, memWrite_inRange s v h, ?_⟩⟩
  have hlt : addr.toNat < Config.memSize := by rw [memSize_eq]; omega
  exact ⟨memRead_stored_self s v h, stored_memKeptBut s _ v, rfl, fun hwf => Memory.set_wf v hwf hlt⟩

/-! What an instruction can do to memory -/

/-- Settles O42: a fault keeps memory, and a completion sets at most the byte at its store address. -/
theorem memoryOutsideTheStoredByteIsKept : Obligations.MemoryOutsideTheStoredByteIsKept := by
  intro i s t a h ha
  rcases exec_next h with ⟨e, -, rfl⟩ | hd
  · rfl
  · unfold State.memByte
    rcases hd.frame.mem with hm | ⟨b, v, hb, -, hm⟩
    · rw [hm]
    · have hne : a ≠ b := fun hab => ha (hab ▸ hb)
      rw [hm, Memory.get_set_ne _ _ hne]

/-- Settles O44: a completion keeps ERR at None, and the one fault of a meaning with a memory address is CALL's. -/
theorem onlyCallReportsAMemoryAddressPastTheFetch : Obligations.OnlyCallReportsAMemoryAddressPastTheFetch := by
  intro i s t v hs h hv
  rcases exec_next h with ⟨e, hf, rfl⟩ | hd
  · obtain rfl : e = .addressOutOfRange .mem v := by simpa using hv
    rcases hf with ⟨o, -, he⟩ | ⟨-, -, he⟩ | ⟨hi, hgt, he⟩ | ⟨-, he⟩
    · simp at he
    · simp at he
    · obtain rfl : v = s.pc + 2 := by simpa using he
      exact ⟨hi, rfl, hgt⟩
    · simp at he
  · simp [hd.frame.err, hs] at hv

/-! A store and the fetch after it -/

/-- An opcode at `pc` whose instruction lies whole in memory is fetched as that instruction. -/
theorem fetchInstr_of_opcode {map : Mnemonic → Byte} (hmap : OpcodesDistinct map) {m : Mnemonic} {s : State}
    (hlen : s.pc.toNat + lengthOf m ≤ 256) (hop : s.memByte s.pc.toNat = map m) :
    fetchInstr map s = .ok (assemble m (s.memByte (s.pc.toNat + 1)) (s.memByte (s.pc.toNat + 2))) := by
  have hpc : ¬ 255 < s.pc.toNat := by
    have : lengthOf m = 1 + nopsOf m := rfl
    omega
  rw [fetchInstr_eq, if_neg hpc, hop, dispatchWith_opcode hmap]
  exact if_pos hlen

/-- A Running core with HLT's opcode at `pc` halts, and nothing else changes. -/
theorem stepWith_hlt {map : Mnemonic → Byte} (hmap : OpcodesDistinct map) {s : State} (hrun : s.status = .running)
    (hpc : s.pc.toNat ≤ 255) (hop : s.memByte s.pc.toNat = map .hlt) :
    stepWith map s = .next (s.setStatus .halted) := by
  have hlen : s.pc.toNat + lengthOf .hlt ≤ 256 := by rw [lengthOf_hlt]; omega
  rw [stepWith_running map hrun, fetchInstr_of_opcode hmap hlen hop]
  rfl

/-- Settles O16: ST leaves HLT's opcode at the new `pc`, which is a data address and so inside memory. -/
theorem storedOpcodeIsFetchedByTheNextStep : Obligations.StoredOpcodeIsFetchedByTheNextStep := by
  intro map hmap r1 r2 s hrun haddr hval
  refine ⟨(s.stored (s.getReg r1).toNat (s.getReg r2)).advancePc 3, exec_done ⟨r1, r2, rfl, rfl, rfl⟩, ?_⟩
  have hpc : (s.pc + 3).toNat = (s.getReg r1).toNat := by rw [← haddr, zext9_toNat]
  refine stepWith_hlt hmap hrun ?_ ?_
  · show (s.pc + 3).toNat ≤ 255
    have := (s.getReg r1).isLt
    omega
  · show (s.stored (s.getReg r1).toNat (s.getReg r2)).memByte (s.pc + 3).toNat = map .hlt
    rw [hpc, State.stored_memByte, if_pos rfl, hval]

end Sys2Proof.Machine

/-! Family 30_encoding: decoding and encoding are inverse to each other, and the faults of a fetch. -/

namespace Sys2Proof

/-! The operand bytes of an instruction -/

theorem operandBytes_length (i : Instr) : i.operandBytes.length = nopsOf i.mnemonic := by
  cases i <;> rfl

/-- An instruction has the operand bytes its format gives it, and no others (R50). -/
theorem operandBytes_assemble (m : Mnemonic) (o1 o2 : Byte) :
    (assemble m o1 o2).operandBytes = [o1, o2].take (nopsOf m) := by
  cases m <;> rfl

/-- An instruction is made again from its mnemonic and its operand bytes, whatever follows them. -/
theorem assemble_operandBytes (i : Instr) (rest : List Byte) :
    assemble i.mnemonic ((i.operandBytes ++ rest).getD 0 0) ((i.operandBytes ++ rest).getD 1 0) = i := by
  cases i <;> rfl

/-! Reading a list of bytes -/

theorem drop_of_readListByte {bs : List Byte} {k : Nat} {b : Byte} (h : readListByte bs k = .ok b) :
    bs.drop k = b :: bs.drop (k + 1) := by
  unfold readListByte at h
  split at h
  · rename_i b' hb
    obtain rfl : b' = b := by simpa using h
    obtain ⟨hk, rfl⟩ := List.getElem?_eq_some_iff.mp hb
    exact List.drop_eq_getElem_cons hk
  · simp at h

/-- An opcode that has its operand bytes after it decodes to its instruction. -/
theorem decodeWith_of_dispatch {map : Mnemonic → Byte} {op : Byte} {m : Mnemonic} {bs : List Byte}
    (hm : dispatchWith map op = some m) (hlen : nopsOf m ≤ bs.length) :
    decodeWith map (op :: bs) = .ok (assemble m (bs.getD 0 0) (bs.getD 1 0), bs.drop (nopsOf m)) := by
  rcases Machine.nopsOf_cases m with hn | hn | hn
  · simp [decodeWith, readInstr, readListByte, Instr.length, lengthOf, hm, hn,
      Machine.assemble_nops_zero hn _ _ 0 0]
  · obtain ⟨o1, bs, rfl⟩ := List.exists_cons_of_length_pos (l := bs) (by omega)
    simp [decodeWith, readInstr, readListByte, Instr.length, lengthOf, hm, hn,
      Machine.assemble_nops_one hn _ _ 0]
  · obtain ⟨o1, bs, rfl⟩ := List.exists_cons_of_length_pos (l := bs) (by omega)
    obtain ⟨o2, bs, rfl⟩ := List.exists_cons_of_length_pos (l := bs) (by simp at hlen; omega)
    simp [decodeWith, readInstr, readListByte, Instr.length, lengthOf, hm, hn, Nat.add_comm]

/-- What decodes is the instruction read, and the rest is what lies past its length. -/
theorem decodeWith_ok {map : Mnemonic → Byte} {bs rest : List Byte} {i : Instr} (h : decodeWith map bs = .ok (i, rest)) :
    readInstr map .invalidOpcode (readListByte bs) = .ok i ∧ rest = bs.drop i.length := by
  unfold decodeWith at h
  split at h
  · simp at h
  · rename_i j hj
    obtain ⟨rfl, rfl⟩ : j = i ∧ bs.drop j.length = rest := by simpa using h
    exact ⟨hj, rfl⟩

/-! Decoding and encoding -/

/-- Settles O2: the opcode dispatches to the instruction's mnemonic, and the operand bytes are as many as its format says. -/
theorem decodeOfEncodeIsTheInstruction : Obligations.DecodeOfEncodeIsTheInstruction := by
  intro map hmap i rest
  have hlen : nopsOf i.mnemonic ≤ (i.operandBytes ++ rest).length := by
    rw [List.length_append, operandBytes_length]
    omega
  show decodeWith map (map i.mnemonic :: (i.operandBytes ++ rest)) = .ok (i, rest)
  rw [decodeWith_of_dispatch (dispatchWith_opcode hmap _) hlen, assemble_operandBytes,
    List.drop_left' (operandBytes_length i)]

/-- Settles O3: the bytes read are the opcode and the operand bytes, one after the other, and the rest is what is dropped. -/
theorem encodeOfDecodeIsTheBytes : Obligations.EncodeOfDecodeIsTheBytes := by
  intro map bs rest i h
  obtain ⟨hread, rfl⟩ := decodeWith_ok h
  obtain ⟨op, m, h0, hm, hi⟩ := readInstr_ok hread
  obtain rfl := dispatchWith_some hm
  have hop : bs = map m :: bs.drop 1 := drop_of_readListByte h0
  obtain ⟨rfl, hops⟩ : i.mnemonic = m ∧ bs.drop 1 = i.operandBytes ++ bs.drop (1 + nopsOf m) := by
    rcases hi with ⟨hn, rfl⟩ | ⟨hn, o1, h1, rfl⟩ | ⟨hn, o1, o2, h1, h2, rfl⟩
    · simp [operandBytes_assemble, hn]
    · simp [operandBytes_assemble, hn, drop_of_readListByte h1]
    · simp [operandBytes_assemble, hn, drop_of_readListByte h1, drop_of_readListByte h2]
  calc bs = map i.mnemonic :: bs.drop 1 := hop
    _ = encodeWith map i ++ bs.drop i.length := by rw [hops]; rfl

/-- Settles O1: each word is the encoding of its instruction under the default map, so decoding gives it back. -/
theorem decodedWordsAreTheSpecsInstructions : Obligations.DecodedWordsAreTheSpecsInstructions := by
  have h (i : Instr) (rest : List Byte) : decode (encode i ++ rest) = .ok (i, rest) :=
    decodeOfEncodeIsTheInstruction Config.opcodeMap opcodeMap_distinct i rest
  exact ⟨h (.ldi 0 8) [0x47], h (.st 1 2) [], h (.add 0 7) [], h (.dec 7 1) [], h (.mul 3 4) [], h (.cmp 5 6) [],
    h (.push 0) [], h (.pop 1) [], h (.call 1) [], h .ret [0xFF], h (.jmp 2) [], h (.jeq 2) [], h (.jne 2) [],
    h .hlt [], h (.prn 3) []⟩

/-! How many bytes are opcodes -/

theorem dispatchWith_isSome {map : Mnemonic → Byte} {op : Byte} :
    (dispatchWith map op).isSome ↔ ∃ m, map m = op := by
  rw [Option.isSome_iff_ne_none, Ne, dispatchWith_none]
  simp

/-- The byte values that dispatch to an instruction are the opcodes of the 15 instructions, each once. -/
theorem filter_dispatch_perm {map : Mnemonic → Byte} (hmap : Machine.OpcodesDistinct map) :
    ((List.range 256).filter fun n => !(dispatchWith map (BitVec.ofNat 8 n)).isNone).Perm
      (allMnemonics.map fun m => (map m).toNat) := by
  have hinj : Function.Injective fun m => (map m).toNat := fun m n h => hmap m n (BitVec.eq_of_toNat_eq h)
  refine (List.perm_ext_iff_of_nodup (List.nodup_range.filter _) (List.Nodup.map hinj (by decide))).mpr fun n => ?_
  have hn (m : Mnemonic) : (map m).toNat = n ↔ n < 256 ∧ map m = BitVec.ofNat 8 n := by
    have := (map m).isLt
    rw [← BitVec.toNat_inj, BitVec.toNat_ofNat]
    omega
  simp [dispatchWith_isSome, mem_allMnemonics, hn]

theorem invalidOpcodes_length {map : Mnemonic → Byte} (hmap : Machine.OpcodesDistinct map) :
    ((List.range 256).filter fun n => (dispatchWith map (BitVec.ofNat 8 n)).isNone).length = 241 := by
  have hsum := List.length_eq_length_filter_add (l := List.range 256)
    fun n => (dispatchWith map (BitVec.ofNat 8 n)).isNone
  rw [(filter_dispatch_perm hmap).length_eq, List.length_range, List.length_map] at hsum
  have h15 : allMnemonics.length = 15 := rfl
  omega

end Sys2Proof

namespace Sys2Proof.Machine

/-! The faults of a fetch -/

theorem stepWith_takesFault {map : Mnemonic → Byte} {s : State} {e : ErrRecord} (hrun : s.status = .running)
    (h : fetchInstr map s = .error e) : TakesFault (stepWith map s) s e := by
  rw [stepWith_running map hrun, h]
  rfl

/-- Settles O4: the 15 opcodes are distinct bytes, and the fetch of a byte that dispatches to nothing is the fault. -/
theorem invalidOpcodeFaultsWithAddressAndByte : Obligations.InvalidOpcodeFaultsWithAddressAndByte := by
  refine ⟨invalidOpcodes_length opcodeMap_distinct, by decide, by decide, fun map s hrun hpc hop => ?_⟩
  apply stepWith_takesFault hrun
  rw [fetchInstr_eq, if_neg (Nat.not_lt.mpr hpc), dispatchWith_none.mpr hop]

/-- Settles O5: the fetch of an opcode above the top of memory, and that of an operand byte above it. -/
theorem fetchAboveTopOfMemoryFaults : Obligations.FetchAboveTopOfMemoryFaults := by
  intro map s hrun
  refine ⟨fun hpc => stepWith_takesFault hrun ?_, fun m hpc hm hlen => stepWith_takesFault hrun ?_⟩
  · rw [fetchInstr_eq, if_pos hpc]
  · rw [fetchInstr_eq, if_neg (Nat.not_lt.mpr hpc), hm]
    exact if_neg (Nat.not_le.mpr hlen)

end Sys2Proof.Machine

/-! Family 40_execution_loop: what a fetch reads, what a step answers, and a run that never ends. -/

namespace Sys2Proof

/-- Reading an instruction needs the bytes of that instruction only: another way of reading that answers the same at
those places, whatever its errors are and whatever it answers elsewhere, reads the same instruction. -/
theorem readInstr_ok_of_sameBytes {ε δ : Type} {map : Mnemonic → Byte} {invalid : Byte → ε} {invalid' : Byte → δ}
    {read : Nat → Except ε Byte} {read' : Nat → Except δ Byte} {i : Instr} (h : readInstr map invalid read = .ok i)
    (hsame : ∀ k b, k < i.length → read k = .ok b → read' k = .ok b) : readInstr map invalid' read' = .ok i := by
  obtain ⟨op, m, h0, hm, hi⟩ := readInstr_ok h
  have hlen : i.length = 1 + nopsOf m := by
    rcases hi with ⟨-, rfl⟩ | ⟨-, _, -, rfl⟩ | ⟨-, _, _, -, -, rfl⟩ <;> simp [Instr.length, lengthOf]
  have h0' : read' 0 = .ok op := hsame 0 op (by omega) h0
  rcases hi with ⟨hn, rfl⟩ | ⟨hn, o1, h1, rfl⟩ | ⟨hn, o1, o2, h1, h2, rfl⟩
  · simp [readInstr, h0', hm, hn]
  · simp [readInstr, h0', hm, hn, hsame 1 o1 (by omega) h1]
  · simp [readInstr, h0', hm, hn, hsame 1 o1 (by omega) h1, hsame 2 o2 (by omega) h2]

end Sys2Proof

namespace Sys2Proof.Machine

/-! What a fetch reads -/

theorem memRead_stored_ne (s : State) {a : Nat} {addr : Addr} (v : Byte) (h : addr.toNat ≠ a) :
    memRead (s.stored a v) addr = memRead s addr := by
  simp only [memRead, State.stored_mem, Memory.get_set_ne _ _ h]

/-- Settles O7: a store outside the instruction leaves every byte the fetch reads as it was. -/
theorem fetchReadsOnlyTheInstructionsBytes : Obligations.FetchReadsOnlyTheInstructionsBytes := by
  intro map s i a v hpc h ha
  refine readInstr_ok_of_sameBytes h fun k b hk hb => ?_
  have hlen := (Laws.Encoding.length_bounds i).2
  have haddr : (s.pc + BitVec.ofNat 9 k).toNat = s.pc.toNat + k := pc_add_toNat (by omega) (by omega)
  have hne : (s.pc + BitVec.ofNat 9 k).toNat ≠ a := by omega
  exact (memRead_stored_ne s v hne).trans hb

/-- A byte of the list of bytes from `pc` on is the byte read in place, for every place an instruction reaches. -/
theorem memRead_of_readListByte_bytesFromPc {s : State} {k : Nat} {b : Byte} (hk : k ≤ 3)
    (h : readListByte s.bytesFromPc k = .ok b) : memRead s (s.pc + BitVec.ofNat 9 k) = .ok b := by
  unfold readListByte at h
  split at h
  · rename_i b' hb
    obtain rfl : b' = b := by simpa using h
    obtain ⟨hlt, rfl⟩ : k < 256 - s.pc.toNat ∧ s.memByte (s.pc.toNat + k) = b' := by
      simpa [State.bytesFromPc, memSize_eq, List.getElem?_eq_some_iff] using hb
    have haddr : (s.pc + BitVec.ofNat 9 k).toNat = s.pc.toNat + k := pc_add_toNat (by omega) hk
    rw [memRead_inRange s (by omega), haddr]
  · simp at h

theorem stepWith_of_fetchInstr {map : Mnemonic → Byte} {s : State} {i : Instr} (hrun : s.status = .running)
    (h : fetchInstr map s = .ok i) : stepWith map s = exec i s := by
  rw [stepWith_running map hrun, h, orRaise_ok]

/-- Settles O6: the decoder and the fetch read an instruction in one way, from the same bytes. -/
theorem stepRunsTheDecodedInstruction : Obligations.StepRunsTheDecodedInstruction := by
  intro s i rest hrun h
  obtain ⟨hread, -⟩ := decodeWith_ok h
  refine stepWith_of_fetchInstr hrun (readInstr_ok_of_sameBytes hread fun k b hk hb => ?_)
  have hlen := (Laws.Encoding.length_bounds i).2
  exact memRead_of_readListByte_bytesFromPc (by omega) hb

/-! What a step answers -/

/-- Settles O8: only in Running is a step taken. -/
theorem noStateChangesOutsideRunning : Obligations.NoStateChangesOutsideRunning := by
  intro map s hs
  have hrun : s.status ≠ .running := by rcases hs with h | h | h <;> simp [h]
  exact stepWith_notRunning map hrun

/-- A check answers a next state, its fault, when what follows it does. -/
theorem orRaise_answers {α : Type} (s : State) (v : Except ErrRecord α) {k : α → Result}
    (hk : ∀ a, ∃ t, k a = .next t) : ∃ t, orRaise s v k = .next t := by
  cases v with
  | error e => exact ⟨s.raised e, rfl⟩
  | ok a => exact hk a

theorem withReg_answers (o1 : Byte) (s : State) {k : RegIndex → Result} (hk : ∀ r, ∃ t, k r = .next t) :
    ∃ t, withReg o1 s k = .next t := orRaise_answers s _ hk

theorem withRegs_answers (o1 o2 : Byte) (s : State) {k : RegIndex → RegIndex → Result}
    (hk : ∀ r1 r2, ∃ t, k r1 r2 = .next t) : ∃ t, withRegs o1 o2 s k = .next t :=
  orRaise_answers s _ fun r1 => orRaise_answers s _ (hk r1)

theorem execAlu_answers (m : Mnemonic) (op : AluOp) (o1 o2 : Byte) (s : State) : ∃ t, execAlu m op o1 o2 s = .next t :=
  withRegs_answers o1 o2 s fun _ _ => orRaise_answers s _ fun _ => ⟨_, rfl⟩

theorem execBranch_answers (m : Mnemonic) (taken : Bool) (o1 : Byte) (s : State) :
    ∃ t, execBranch m taken o1 s = .next t :=
  withReg_answers o1 s fun r => by cases taken <;> exact ⟨_, rfl⟩

/-- Every meaning is a chain of checks that ends in a next state. -/
theorem exec_answers (i : Instr) (s : State) : ∃ t, exec i s = .next t := by
  cases i with
  | ldi o1 _ | prn o1 | jmp o1 => exact withReg_answers o1 s fun _ => ⟨_, rfl⟩
  | hlt => exact ⟨_, rfl⟩
  | add o1 o2 | dec o1 o2 | mul o1 o2 => exact execAlu_answers _ _ o1 o2 s
  | jeq o1 | jne o1 => exact execBranch_answers _ _ o1 s
  | push o1 =>
    exact withReg_answers o1 s fun _ => orRaise_answers s _ fun _ => orRaise_answers s _ fun _ => ⟨_, rfl⟩
  | pop o1 =>
    refine withReg_answers o1 s fun r => orRaise_answers s _ fun v => ?_
    split
    · exact orRaise_answers s _ fun _ => ⟨_, rfl⟩
    · exact orRaise_answers s _ fun _ => ⟨_, rfl⟩
  | call o1 =>
    exact withReg_answers o1 s fun _ => orRaise_answers s _ fun _ => orRaise_answers s _ fun _ =>
      orRaise_answers s _ fun _ => ⟨_, rfl⟩
  | ret => exact orRaise_answers s _ fun _ => orRaise_answers s _ fun _ => ⟨_, rfl⟩
  | st o1 o2 => exact withRegs_answers o1 o2 s fun _ _ => orRaise_answers s _ fun _ => ⟨_, rfl⟩
  | cmp o1 o2 => exact withRegs_answers o1 o2 s fun _ _ => ⟨_, rfl⟩

/-- Settles O9: outside Running the state is answered again; in Running the fetch is one more check before the meaning. -/
theorem everyStepAnswersANextState : Obligations.EveryStepAnswersANextState := by
  refine ⟨fun map s => ?_, exec_answers⟩
  by_cases hrun : s.status = .running
  · rw [stepWith_running map hrun]
    exact orRaise_answers s _ fun i => exec_answers i s
  · exact ⟨s, stepWith_notRunning map hrun⟩

/-- Settles O10: a fault of the fetch or of the meaning is `raised`, and no completion leaves a Running core Faulted. -/
theorem faultChangesOnlyStatusAndErr : Obligations.FaultChangesOnlyStatusAndErr := by
  intro map s t hrun h hfaulted
  rcases stepWith_next h with ⟨hn, -⟩ | ⟨-, e, -, rfl⟩ | ⟨-, i, -, h⟩
  · exact absurd hrun hn
  · exact ⟨e, rfl⟩
  · rcases exec_next h with ⟨e, -, rfl⟩ | hd
    · exact ⟨e, rfl⟩
    · rcases hd.frame.status with hst | ⟨-, hst⟩
      · simp [hst, hrun] at hfaulted
      · simp [hst] at hfaulted

/-! A run that never ends -/

/-- A state that a step answers again is there after any number of steps. -/
theorem runSteps_of_stepWith_self {map : Mnemonic → Byte} {s : State} (h : stepWith map s = .next s) (k : Nat) :
    runSteps map k s = .next s := by
  induction k with
  | zero => rfl
  | succ k ih => simpa only [runSteps, h] using ih

theorem State.loadPc_self {s : State} {v : Byte} (h : v.toNat = s.pc.toNat) : s.loadPc v = s := by
  have hpc : zext9 v = s.pc := BitVec.eq_of_toNat_eq (by rw [zext9_toNat, h])
  rw [State.loadPc, hpc]

/-- Settles O36: the JMP loads `pc` with the value it has, so a step answers the same state. -/
theorem jumpToItselfRunsForever : Obligations.JumpToItselfRunsForever := by
  intro map hmap r s hrun hpc hop ho1 hreg
  apply runSteps_of_stepWith_self
  have hlen : s.pc.toNat + lengthOf .jmp ≤ 256 := by rw [lengthOf_jmp]; omega
  have hfetch : fetchInstr map s = .ok (.jmp (regByte r)) := by
    rw [fetchInstr_of_opcode hmap hlen hop, ho1]
    rfl
  calc stepWith map s = exec (.jmp (regByte r)) s := stepWith_of_fetchInstr hrun hfetch
    _ = .next (s.loadPc (s.getReg r)) := exec_done ⟨r, rfl, rfl⟩
    _ = .next s := by rw [State.loadPc_self hreg]

end Sys2Proof.Machine

/-! Family 41_data_movement: what a step at an opcode does, the checks of register operands, and the statements of LDI
and ST. -/

namespace Sys2Proof.Machine

/-! A step at an opcode -/

section
variable {map : Mnemonic → Byte} (hmap : OpcodesDistinct map) {m : Mnemonic} {s : State}
include hmap

/-- A Running core with an opcode at `pc` runs its instruction, where that lies whole in memory. -/
theorem stepWith_of_opcode (hrun : s.status = .running) (hlen : s.pc.toNat + lengthOf m ≤ 256)
    (hop : s.memByte s.pc.toNat = map m) :
    stepWith map s = exec (assemble m (s.memByte (s.pc.toNat + 1)) (s.memByte (s.pc.toNat + 2))) s :=
  stepWith_of_fetchInstr hrun (fetchInstr_of_opcode hmap hlen hop)

/-- A Running core with an opcode at `pc` takes the fault of the fetch at 256, where its instruction does not fit. -/
theorem stepWith_of_opcode_pastTop (hrun : s.status = .running) (hpc : s.pc.toNat ≤ 255)
    (hlen : 256 < s.pc.toNat + lengthOf m) (hop : s.memByte s.pc.toNat = map m) :
    TakesFault (stepWith map s) s (.addressOutOfRange .mem 256) :=
  (fetchAboveTopOfMemoryFaults map s hrun).2 m hpc (hop ▸ dispatchWith_opcode hmap m) hlen

/-- Every mnemonic with two operand bytes has the three-byte form. -/
theorem threeByteForm_of_nopsOf (hn : nopsOf m = 2) : ThreeByteForm map m (assemble m) := by
  have hlen : lengthOf m = 3 := by rw [lengthOf, hn]
  refine ⟨fun o1 o2 rest => ?_, fun s hrun hpc hop => ?_, fun s hrun hpc hop => ?_⟩
  · have h := decodeWith_of_dispatch (bs := o1 :: o2 :: rest) (dispatchWith_opcode hmap m) (by simp [hn])
    rw [hn] at h
    exact h
  · exact stepWith_of_opcode hmap hrun (by omega) hop
  · exact stepWith_of_opcode_pastTop hmap hrun (by omega) (by omega) hop

end

/-! The checks of register operands -/

/-- An instruction with one register operand checks it. -/
theorem checksRegister_of_regOperands {mk : Byte → Instr} (h : ∀ o1, (mk o1).regOperands = [o1]) : ChecksRegister mk :=
  fun o1 s h1 => firstBadRegisterOperandIsReported (mk o1) s o1 (by rw [h, find?_above_cons _ h1])

/-- An instruction with two register operands checks them, the first one first. -/
theorem checksTwoRegisters_of_regOperands {mk : Byte → Byte → Instr} (h : ∀ o1 o2, (mk o1 o2).regOperands = [o1, o2]) :
    ChecksTwoRegisters mk := by
  refine ⟨fun o1 o2 s h1 => ?_, fun o1 o2 s h1 h2 => ?_⟩
  · exact firstBadRegisterOperandIsReported _ s o1 (by rw [h, find?_above_cons _ h1])
  · exact firstBadRegisterOperandIsReported _ s o2 (by simp [h, Nat.not_lt.mpr h1, h2])

/-! LDI and ST -/

theorem setReg_regsKeptBut (s : State) (r : RegIndex) (v : Byte) : RegsKeptBut [r] s (s.setReg r v) :=
  fun _ hk => s.getReg_setReg_ne v (List.ne_of_not_mem_cons hk)

/-- Settles O12: LDI completes with one register set, and its operand checks and its form are those of its format. -/
theorem ldiLoadsTheImmediate : Obligations.LdiLoadsTheImmediate := by
  refine ⟨fun r o2 s => ?_, fun _ => checksRegister_of_regOperands fun _ => rfl,
    fun map hmap => threeByteForm_of_nopsOf hmap (m := .ldi) rfl⟩
  have hdone : ExecDone (.ldi (regByte r) o2) s ((s.setReg r o2).advancePc 3) := ⟨r, rfl, rfl⟩
  exact ⟨_, exec_done hdone, s.getReg_setReg_self r o2, rfl, setReg_regsKeptBut s r o2, fun _ _ => rfl, rfl, ⟨rfl, rfl⟩, rfl⟩

/-- Settles O13: ST completes with one byte stored, and its operand checks and its form are those of its format. -/
theorem stStoresRegBAtTheAddressInRegA : Obligations.StStoresRegBAtTheAddressInRegA := by
  refine ⟨fun r1 r2 s => ?_, checksTwoRegisters_of_regOperands fun _ _ => rfl,
    fun map hmap => threeByteForm_of_nopsOf hmap (m := .st) rfl⟩
  have hdone : ExecDone (.st (regByte r1) (regByte r2)) s
      ((s.stored (s.getReg r1).toNat (s.getReg r2)).advancePc 3) := ⟨r1, r2, rfl, rfl, rfl⟩
  exact ⟨_, exec_done hdone, Memory.get_set_self _ _ _, rfl, fun _ _ => rfl, stored_memKeptBut s _ _, rfl, ⟨rfl, rfl⟩, rfl⟩

end Sys2Proof.Machine

/-! Family 42_alu: the ALU is arithmetic modulo 256, the three instructions that write its result, and the operation it
does not support. -/

namespace Sys2Proof.Machine

/-! The laws of the ALU -/

theorem toNat_sub_eq_emod (a b : Byte) : ((a - b).toNat : Int) = ((a.toNat : Int) - b.toNat) % 256 := by
  have ha := a.isLt
  have hb := b.isLt
  rw [BitVec.toNat_sub]
  omega

theorem add_eq_ofInt_toInt (a b : Byte) : a + b = BitVec.ofInt 8 (a.toInt + b.toInt) := by
  rw [BitVec.ofInt_add, BitVec.ofInt_toInt, BitVec.ofInt_toInt]

theorem sub_eq_ofInt_toInt (a b : Byte) : a - b = BitVec.ofInt 8 (a.toInt - b.toInt) := by
  apply BitVec.eq_of_toInt_eq
  rw [BitVec.toInt_sub, BitVec.toInt_ofInt]

theorem mul_eq_ofInt_toInt (a b : Byte) : a * b = BitVec.ofInt 8 (a.toInt * b.toInt) := by
  rw [BitVec.ofInt_mul, BitVec.ofInt_toInt, BitVec.ofInt_toInt]

/-- Settles O20: the ALU's operations are those of bytes, which are a commutative ring. -/
theorem aluIsArithmeticModulo256 : Obligations.AluIsArithmeticModulo256 := by
  intro a b c
  refine ⟨a + b, a - b, a * b, alu_add a b, alu_sub a b, alu_mul a b, BitVec.toNat_add a b, toNat_sub_eq_emod a b,
    BitVec.toNat_mul a b, add_eq_ofInt_toInt a b, sub_eq_ofInt_toInt a b, mul_eq_ofInt_toInt a b, ?_, ?_,
    ⟨b + c, alu_add b c, ?_⟩, ⟨b * c, alu_mul b c, ?_⟩, ?_, ?_, ?_, ?_⟩
  · rw [alu_add, add_comm]
  · rw [alu_mul, mul_comm]
  · rw [alu_add, alu_add, add_assoc]
  · rw [alu_mul, alu_mul, mul_assoc]
  · rw [alu_add, sub_add_cancel]
  · rw [alu_sub, sub_self]
  · rw [alu_add, add_zero]
  · rw [alu_mul, mul_one]

/-! ADD, DEC and MUL -/

/-- The three instructions complete with the ALU's value in the first register, `pc` past the instruction's three bytes, and
everything else as it was. -/
theorem execAlu_writesValue {m : Mnemonic} {op : AluOp} (hm : lengthOf m = 3) (hop : op ≠ .unsupported) (r1 r2 : RegIndex)
    (s : State) : ∃ t, execAlu m op (regByte r1) (regByte r2) s = .next t ∧
      t.getReg r1 = aluValue op (s.getReg r1) (s.getReg r2) ∧ t.pc = s.pc + 3 ∧
      RegsKeptBut [r1] s t ∧ MemKeptBut [] s t ∧ t.fl = s.fl ∧ SystemKept s t ∧ t.out = s.out := by
  refine ⟨_, execAlu_regByte m hop r1 r2 s, s.getReg_setReg_self r1 _, ?_, setReg_regsKeptBut s r1 _, fun _ _ => rfl, rfl,
    ⟨rfl, rfl⟩, rfl⟩
  rw [hm]
  rfl

/-- Settles O17: ADD completes with the ALU's sum, and its operand checks and its form are those of its format. -/
theorem addWritesTheSumModulo256 : Obligations.AddWritesTheSumModulo256 := by
  refine ⟨fun r1 r2 s => ?_, checksTwoRegisters_of_regOperands fun _ _ => rfl,
    fun map hmap => threeByteForm_of_nopsOf hmap (m := .add) rfl⟩
  obtain ⟨t, ht, hval, hframe⟩ := execAlu_writesValue (m := .add) (op := .add) rfl (by decide) r1 r2 s
  exact ⟨t, ht, by rw [hval]; exact BitVec.toNat_add _ _, hframe⟩

/-- Settles O18: DEC completes with the ALU's difference, and its operand checks and its form are those of its format. -/
theorem decWritesTheDifferenceModulo256 : Obligations.DecWritesTheDifferenceModulo256 := by
  refine ⟨fun r1 r2 s => ?_, checksTwoRegisters_of_regOperands fun _ _ => rfl,
    fun map hmap => threeByteForm_of_nopsOf hmap (m := .dec) rfl⟩
  obtain ⟨t, ht, hval, hframe⟩ := execAlu_writesValue (m := .dec) (op := .sub) rfl (by decide) r1 r2 s
  exact ⟨t, ht, by rw [hval]; exact toNat_sub_eq_emod _ _, hframe⟩

/-- Settles O19: MUL completes with the ALU's product, and its operand checks and its form are those of its format. -/
theorem mulWritesTheProductModulo256 : Obligations.MulWritesTheProductModulo256 := by
  refine ⟨fun r1 r2 s => ?_, checksTwoRegisters_of_regOperands fun _ _ => rfl,
    fun map hmap => threeByteForm_of_nopsOf hmap (m := .mul) rfl⟩
  obtain ⟨t, ht, hval, hframe⟩ := execAlu_writesValue (m := .mul) (op := .mul) rfl (by decide) r1 r2 s
  exact ⟨t, ht, by rw [hval]; exact BitVec.toNat_mul _ _, hframe⟩

/-- Settles O21: DEC keeps the second register, since it is another one, so ADD adds back what DEC took away. -/
theorem decThenAddRestoresTheRegister : Obligations.DecThenAddRestoresTheRegister := by
  intro r1 r2 s hne
  obtain ⟨t, ht, hdiff, hpc, hregs, hmem, hfl, ⟨hstatus, herr⟩, hout⟩ :=
    execAlu_writesValue (m := .dec) (op := .sub) rfl (by decide) r1 r2 s
  obtain ⟨u, hu, hsum, hpc', hregs', hmem', hfl', ⟨hstatus', herr'⟩, hout'⟩ :=
    execAlu_writesValue (m := .add) (op := .add) rfl (by decide) r1 r2 t
  have hr2 : t.getReg r2 = s.getReg r2 := hregs r2 (by simpa using hne.symm)
  have hr1 : u.getReg r1 = s.getReg r1 := by
    calc u.getReg r1 = t.getReg r1 + t.getReg r2 := hsum
      _ = s.getReg r1 - s.getReg r2 + s.getReg r2 := by rw [hr2, hdiff]; rfl
      _ = s.getReg r1 := sub_add_cancel _ _
  refine ⟨t, u, ht, hu, fun k _ => ?_, fun a ha => (hmem' a ha).trans (hmem a ha), hfl'.trans hfl,
    ⟨hstatus'.trans hstatus, herr'.trans herr⟩, hout'.trans hout, ?_⟩
  · by_cases hk : k = r1
    · rw [hk, hr1]
    · have hk' : k ∉ [r1] := by simpa using hk
      exact (hregs' k hk').trans (hregs k hk')
  · rw [hpc', hpc]
    exact BitVec.add_assoc s.pc 3 3

/-! The operation the ALU does not support -/

theorem ExecFaults.ne_unsupportedAluOperation {i : Instr} {s : State} {e : ErrRecord} (h : ExecFaults i s e) (op : AluOp) :
    e ≠ .unsupportedAluOperation op := by
  rcases h with ⟨o, -, rfl⟩ | ⟨-, -, rfl⟩ | ⟨-, -, rfl⟩ | ⟨-, rfl⟩ <;> exact ErrRecord.noConfusion

theorem fetchInstr_ne_unsupportedAluOperation (map : Mnemonic → Byte) (s : State) (op : AluOp) :
    fetchInstr map s ≠ .error (.unsupportedAluOperation op) := by
  intro h
  rcases fetchInstr_error h with ⟨-, he⟩ | ⟨-, -, he⟩ | ⟨-, he⟩ <;> cases he

theorem exec_err_ne_unsupportedAluOperation {i : Instr} {s t : State} (op : AluOp) (hs : s.err = none)
    (h : exec i s = .next t) : t.err ≠ some (.unsupportedAluOperation op) := by
  rcases exec_next h with ⟨e, hf, rfl⟩ | hd
  · simpa using hf.ne_unsupportedAluOperation op
  · simp [hd.frame.err, hs]

/-- Settles O22: no fault of a meaning and none of a fetch is the ALU's, and a completion keeps ERR at None. -/
theorem unsupportedAluOperationIsUnreachable : Obligations.UnsupportedAluOperationIsUnreachable := by
  refine ⟨fun i s t op => exec_err_ne_unsupportedAluOperation op, fun map s t op hs h => ?_⟩
  rcases stepWith_next h with ⟨-, rfl⟩ | ⟨-, e, he, rfl⟩ | ⟨-, i, -, h⟩
  · simp [hs]
  · intro herr
    obtain rfl : e = .unsupportedAluOperation op := by simpa using herr
    exact fetchInstr_ne_unsupportedAluOperation map s op he
  · exact exec_err_ne_unsupportedAluOperation op hs h

end Sys2Proof.Machine

/-! Family 43_compare_flags: the flags of CMP. -/

namespace Sys2Proof.Machine

theorem compareFlags_of_eq {a b : Byte} (h : a.toNat = b.toNat) : compareFlags a b = 0x01 := by
  obtain rfl : a = b := BitVec.eq_of_toNat_eq h
  exact compareFlags_self a

/-- Settles O23: CMP completes with the flags `compareFlags` gives, one lemma for each order of the two registers, and its
operand checks and its form are those of its format. -/
theorem cmpSetsExactlyOneFlag : Obligations.CmpSetsExactlyOneFlag := by
  refine ⟨fun r1 r2 s => ?_, checksTwoRegisters_of_regOperands fun _ _ => rfl,
    fun map hmap => threeByteForm_of_nopsOf hmap (m := .cmp) rfl⟩
  have hdone : ExecDone (.cmp (regByte r1) (regByte r2)) s
      ((s.setFl (compareFlags (s.getReg r1) (s.getReg r2))).advancePc 3) := ⟨r1, r2, rfl, rfl, rfl⟩
  exact ⟨_, exec_done hdone, compareFlags_of_lt, compareFlags_of_gt, compareFlags_of_eq, rfl, fun _ _ => rfl,
    fun _ _ => rfl, ⟨rfl, rfl⟩, rfl⟩

end Sys2Proof.Machine

/-! Family 44_stack: the form of the two-byte instructions, and the statements of PUSH and POP. -/

namespace Sys2Proof.Machine

/-- Every mnemonic with one operand byte has the two-byte form. -/
theorem twoByteForm_of_nopsOf {map : Mnemonic → Byte} (hmap : OpcodesDistinct map) {m : Mnemonic} {mk : Byte → Instr}
    (hn : nopsOf m = 1) (hmk : ∀ o1 o2, assemble m o1 o2 = mk o1) : TwoByteForm map m mk := by
  have hlen : lengthOf m = 2 := by rw [lengthOf, hn]
  refine ⟨fun o1 rest => ?_, fun s hrun hpc hop => ?_, fun s hrun hpc hop => ?_⟩
  · rw [decodeWith_of_dispatch (bs := o1 :: rest) (dispatchWith_opcode hmap m) (by simp [hn]), hmk, hn]
    rfl
  · rw [stepWith_of_opcode hmap hrun (by omega) hop, hmk]
  · exact stepWith_of_opcode_pastTop hmap hrun (by omega) (by omega) hop

theorem setSp_regsKeptBut (s : State) (v : Byte) : RegsKeptBut [7] s (s.setSp v) := setReg_regsKeptBut s 7 v

/-! PUSH -/

/-- PUSH at stack pointer 0 takes StackOverflow (R175). -/
theorem exec_push_overflow (r : RegIndex) {s : State} (hsp : s.sp = 0) :
    TakesFault (exec (.push (regByte r)) s) s .stackOverflow := by
  simp only [exec, execPush_eq, withReg_regByte, hsp, spDec_zero]
  rfl

/-- Settles O26: PUSH completes with one byte stored at the decremented stack pointer, read after the decrement; its
operand check and its form are those of its format. -/
theorem pushStoresBelowTheStackPointer : Obligations.PushStoresBelowTheStackPointer := by
  refine ⟨fun r s hsp => ?_, fun r s => exec_push_overflow r, checksRegister_of_regOperands fun _ => rfl,
    fun map hmap => twoByteForm_of_nopsOf hmap rfl fun _ _ => rfl⟩
  have hdone : ExecDone (.push (regByte r)) s
      (((s.setSp (s.sp - 1)).stored (s.sp.toNat - 1) ((s.setSp (s.sp - 1)).getReg r)).advancePc 2) := ⟨r, rfl, hsp, rfl⟩
  refine ⟨_, exec_done hdone, ?_, ?_, rfl, setSp_regsKeptBut s _, stored_memKeptBut _ _ _, rfl, ⟨rfl, rfl⟩, rfl⟩
  · simpa using toNat_sub_one hsp
  · exact (Memory.get_set_self _ _ _).trans (s.getReg_setSp r _)

/-! POP -/

/-- POP of another register than R7 at stack pointer 255 takes StackUnderflow (R176). -/
theorem exec_pop_underflow {r : RegIndex} {s : State} (hr : r ≠ 7) (hsp : s.sp = 255) :
    TakesFault (exec (.pop (regByte r)) s) s .stackUnderflow := by
  simp only [exec, execPop_eq, withReg_regByte, spIndex_eq, if_neg hr, hsp, spInc_top]
  rfl

/-- POP R7 takes StackUnderflow where the popped byte is 255, since it is that byte which is incremented (R117). -/
theorem exec_pop_sp_underflow {s : State} (htop : s.memByte s.sp.toNat = 255) :
    TakesFault (exec (.pop (regByte 7)) s) s .stackUnderflow := by
  simp only [exec, execPop_eq, withReg_regByte, spIndex_eq, if_true, htop, spInc_top]
  rfl

/-- POP of another register than R7 completes with that register and the stack pointer written. -/
theorem exec_pop_of_ne {r : RegIndex} {s : State} (hr : r ≠ 7) (hsp : s.sp ≠ 255) :
    ∃ t, exec (.pop (regByte r)) s = .next t ∧
      t.getReg r = s.memByte s.sp.toNat ∧ t.sp.toNat = s.sp.toNat + 1 ∧ t.pc = s.pc + 2 ∧
      RegsKeptBut [r, 7] s t ∧ MemKeptBut [] s t ∧ t.fl = s.fl ∧ SystemKept s t ∧ t.out = s.out := by
  have hdone : ExecDone (.pop (regByte r)) s (((s.setReg r (s.memByte s.sp.toNat)).setSp (s.sp + 1)).advancePc 2) :=
    ⟨r, rfl, .inr ⟨hr, hsp, rfl⟩⟩
  refine ⟨_, exec_done hdone, ?_, ?_, rfl, fun k hk => ?_, fun _ _ => rfl, rfl, ⟨rfl, rfl⟩, rfl⟩
  · exact (State.getReg_setSp_ne _ _ hr).trans (s.getReg_setReg_self r _)
  · simpa using toNat_add_one hsp
  · obtain ⟨hkr, hk7⟩ : k ≠ r ∧ k ≠ 7 := by simpa using hk
    exact (State.getReg_setSp_ne _ _ hk7).trans (s.getReg_setReg_ne _ hkr)

/-- POP R7 completes with the stack pointer one above the popped byte. -/
theorem exec_pop_sp {s : State} (htop : s.memByte s.sp.toNat ≠ 255) :
    ∃ t, exec (.pop (regByte 7)) s = .next t ∧
      t.sp.toNat = (s.memByte s.sp.toNat).toNat + 1 ∧ t.pc = s.pc + 2 ∧
      RegsKeptBut [7] s t ∧ MemKeptBut [] s t ∧ t.fl = s.fl ∧ SystemKept s t ∧ t.out = s.out := by
  have hdone : ExecDone (.pop (regByte 7)) s ((s.setSp (s.memByte s.sp.toNat + 1)).advancePc 2) :=
    ⟨7, rfl, .inl ⟨rfl, htop, rfl⟩⟩
  refine ⟨_, exec_done hdone, ?_, rfl, setSp_regsKeptBut s _, fun _ _ => rfl, rfl, ⟨rfl, rfl⟩, rfl⟩
  simpa using toNat_add_one htop

/-- Settles O27: POP has its completion and its fault for R7 and for the other registers; its operand check and its form
are those of its format. -/
theorem popLoadsTheTopOfStack : Obligations.PopLoadsTheTopOfStack :=
  ⟨fun _ _ => exec_pop_of_ne, fun _ => exec_pop_sp, fun _ _ => exec_pop_underflow, fun _ => exec_pop_sp_underflow,
    checksRegister_of_regOperands fun _ => rfl, fun _ hmap => twoByteForm_of_nopsOf hmap rfl fun _ _ => rfl⟩

/-! PUSH, then POP -/

/-- Settles O28: PUSH leaves the value at the new stack pointer, which is below 255, so POP finds it there and puts the
stack pointer back. -/
theorem pushThenPopMovesTheRegister : Obligations.PushThenPopMovesTheRegister := by
  intro a b s ha hb hsp
  have hsp0 : s.sp ≠ 0 := by
    intro h
    simp [h] at hsp
  obtain ⟨t, ht, hspt, htop, hpc, hregs, hmem, hfl, ⟨hstatus, herr⟩, hout⟩ := pushStoresBelowTheStackPointer.1 a s hsp0
  rw [if_neg ha] at htop
  have hspt255 : t.sp ≠ 255 := by
    intro h
    have hlt := s.sp.isLt
    have h255 : t.sp.toNat = 255 := by rw [h]; rfl
    omega
  obtain ⟨u, hu, hval, hspu, hpc', hregs', hmem', hfl', ⟨hstatus', herr'⟩, hout'⟩ := exec_pop_of_ne hb hspt255
  have hsame : u.sp = s.sp := BitVec.eq_of_toNat_eq (by omega)
  refine ⟨t, u, ht, hu, ?_, hsame, ?_, fun k hk => ?_, fun i hi => ?_, hfl'.trans hfl,
    ⟨hstatus'.trans hstatus, herr'.trans herr⟩, hout'.trans hout, ?_⟩
  · rw [hval, hspt, htop]
  · rw [hmem' _ List.not_mem_nil, htop]
  · by_cases hk7 : k = 7
    · rw [hk7]
      exact hsame
    · exact (hregs' k (by simpa [hk7] using hk)).trans (hregs k (by simpa using hk7))
  · exact (hmem' i List.not_mem_nil).trans (hmem i hi)
  · rw [hpc', hpc]
    exact BitVec.add_assoc s.pc 2 2

end Sys2Proof.Machine

/-! Family 45_control_flow: the form of the one-byte instructions, and the statements of the jumps, CALL and RET. -/

namespace Sys2Proof.Machine

/-- Every mnemonic with no operand byte has the one-byte form. -/
theorem oneByteForm_of_nopsOf {map : Mnemonic → Byte} (hmap : OpcodesDistinct map) {m : Mnemonic} {i : Instr}
    (hn : nopsOf m = 0) (hi : ∀ o1 o2, assemble m o1 o2 = i) : OneByteForm map m i := by
  have hlen : lengthOf m = 1 := by rw [lengthOf, hn]
  refine ⟨fun rest => ?_, fun s hrun hpc hop => ?_, fun s hrun hpc => ?_⟩
  · rw [decodeWith_of_dispatch (bs := rest) (dispatchWith_opcode hmap m) (by simp [hn]), hi, hn]
    rfl
  · rw [stepWith_of_opcode hmap hrun (by omega) hop, hi]
  · have htop : s.pc = 256 := BitVec.eq_of_toNat_eq hpc
    rw [← htop]
    exact (fetchAboveTopOfMemoryFaults map s hrun).1 (by omega)

/-! The jumps -/

/-- What a jump leaves: every item of the state but `pc`. -/
theorem withPc_frame (s : State) (p : Addr) :
    RegsKeptBut [] s { s with pc := p } ∧ MemKeptBut [] s { s with pc := p } ∧ { s with pc := p }.fl = s.fl ∧
      SystemKept s { s with pc := p } ∧ { s with pc := p }.out = s.out :=
  ⟨fun _ _ => rfl, fun _ _ => rfl, rfl, ⟨rfl, rfl⟩, rfl⟩

theorem exec_jmp_regByte (r : RegIndex) (s : State) :
    exec (.jmp (regByte r)) s = .next { s with pc := zext9 (s.getReg r) } := exec_done ⟨r, rfl, rfl⟩

theorem exec_jeq_regByte (r : RegIndex) (s : State) :
    exec (.jeq (regByte r)) s = .next { s with pc := if s.flE then zext9 (s.getReg r) else s.pc + 2 } :=
  exec_done ⟨r, rfl, by cases s.flE <;> rfl⟩

theorem exec_jne_regByte (r : RegIndex) (s : State) :
    exec (.jne (regByte r)) s = .next { s with pc := if s.flE then s.pc + 2 else zext9 (s.getReg r) } :=
  exec_done ⟨r, rfl, by cases s.flE <;> rfl⟩

/-- `fl.E` is bit 0 of the flags (R16). -/
theorem State.flE_eq (s : State) : s.flE = s.fl.getLsbD 0 := rfl

/-- Settles O32: JMP loads `pc`; its operand check and its form are those of its format. -/
theorem jmpLoadsTheProgramCounter : Obligations.JmpLoadsTheProgramCounter :=
  ⟨fun r s => ⟨_, exec_jmp_regByte r s, zext9_toNat _, withPc_frame s _⟩, checksRegister_of_regOperands fun _ => rfl,
    fun _ hmap => twoByteForm_of_nopsOf hmap rfl fun _ _ => rfl⟩

/-- Settles O33: JEQ completes with `pc` chosen by the bit E; its operand check, which comes before the choice, and its form
are those of its format. -/
theorem jeqJumpsWhenEqualIsSet : Obligations.JeqJumpsWhenEqualIsSet := by
  refine ⟨fun r s => ⟨_, exec_jeq_regByte r s, fun h => ?_, fun h => ?_, withPc_frame s _⟩,
    checksRegister_of_regOperands fun _ => rfl, fun _ hmap => twoByteForm_of_nopsOf hmap rfl fun _ _ => rfl⟩
  · simp [s.flE_eq.trans h]
  · simp [s.flE_eq.trans h]

/-- Settles O34: JNE completes with `pc` chosen by the bit E, the other way round than JEQ; its operand check, which comes
before the choice, and its form are those of its format. -/
theorem jneJumpsWhenEqualIsClear : Obligations.JneJumpsWhenEqualIsClear := by
  refine ⟨fun r s => ⟨_, exec_jne_regByte r s, fun h => ?_, fun h => ?_, withPc_frame s _⟩,
    fun r s => ⟨_, _, exec_jeq_regByte r s, exec_jne_regByte r s, ?_⟩,
    checksRegister_of_regOperands fun _ => rfl, fun _ hmap => twoByteForm_of_nopsOf hmap rfl fun _ _ => rfl⟩
  · simp [s.flE_eq.trans h]
  · simp [s.flE_eq.trans h]
  · cases s.flE with
    | true => exact .inl ⟨rfl, rfl⟩
    | false => exact .inr ⟨rfl, rfl⟩

/-! CALL -/

/-- CALL at stack pointer 0 takes StackOverflow (R175), wherever it stands. -/
theorem exec_call_overflow (r : RegIndex) {s : State} (hsp : s.sp = 0) :
    TakesFault (exec (.call (regByte r)) s) s .stackOverflow := by
  simp only [exec, execCall_eq, withReg_regByte, hsp, spDec_zero]
  rfl

/-- CALL at 254 takes the range error of its return address, which is 256 (R125). -/
theorem exec_call_returnAddress_outOfRange (r : RegIndex) {s : State} (hsp : s.sp ≠ 0) (hpc : s.pc.toNat = 254) :
    TakesFault (exec (.call (regByte r)) s) s (.addressOutOfRange .mem 256) := by
  have hret : s.pc + 2 = 256 := pc_add_eq_top (k := 2) (by omega) (by omega)
  have hgt : 255 < (s.pc + 2).toNat := by rw [hret]; decide
  simp only [exec, execCall_eq, withReg_regByte, spDec_of_ne hsp, orRaise_ok, returnAddress_of_gt hgt, hret]
  rfl

/-- A return address inside memory is pushed whole. -/
theorem setWidth_byte_toNat {a : Addr} (h : a.toNat ≤ 255) : (a.setWidth 8).toNat = a.toNat := by
  rw [BitVec.toNat_setWidth]
  omega

/-- Settles O30: CALL completes with the return address stored at the decremented stack pointer and `pc` loaded from a
register read after the decrement; its operand check and its form are those of its format. -/
theorem callPushesTheReturnAddressAndJumps : Obligations.CallPushesTheReturnAddressAndJumps := by
  refine ⟨fun r s hsp hpc => ?_, fun r _ => exec_call_overflow r, fun r _ => exec_call_returnAddress_outOfRange r,
    checksRegister_of_regOperands fun _ => rfl, fun _ hmap => twoByteForm_of_nopsOf hmap rfl fun _ _ => rfl⟩
  have hret : (s.pc + 2).toNat = s.pc.toNat + 2 := pc_add_toNat (k := 2) (by omega) (by omega)
  have hle : (s.pc + 2).toNat ≤ 255 := by omega
  have hdone : ExecDone (.call (regByte r)) s
      (((s.setSp (s.sp - 1)).stored (s.sp.toNat - 1) ((s.pc + 2).setWidth 8)).loadPc ((s.setSp (s.sp - 1)).getReg r)) :=
    ⟨r, rfl, hsp, hle, rfl⟩
  refine ⟨_, exec_done hdone, ?_, ?_, ?_, setSp_regsKeptBut s _, stored_memKeptBut _ _ _, rfl, ⟨rfl, rfl⟩, rfl⟩
  · simpa using toNat_sub_one hsp
  · rw [← hret, ← setWidth_byte_toNat hle]
    exact congrArg BitVec.toNat (Memory.get_set_self _ _ _)
  · rw [State.loadPc_pc, zext9_toNat, State.getReg_setSp, spIndex_eq, apply_ite BitVec.toNat, toNat_sub_one hsp]

/-! RET -/

/-- RET at stack pointer 255 takes StackUnderflow (R176). -/
theorem exec_ret_underflow {s : State} (hsp : s.sp = 255) : TakesFault (exec .ret s) s .stackUnderflow := by
  simp only [exec, execRet_eq, hsp, spInc_top]
  rfl

/-- Settles O31: RET completes with `pc` loaded from the top of the stack and the stack pointer one higher; its form is that
of its format. -/
theorem retPopsTheProgramCounter : Obligations.RetPopsTheProgramCounter := by
  refine ⟨fun s hsp => ?_, fun _ => exec_ret_underflow, fun _ hmap => oneByteForm_of_nopsOf hmap rfl fun _ _ => rfl⟩
  have hdone : ExecDone .ret s ((s.loadPc (s.memByte s.sp.toNat)).setSp (s.sp + 1)) := ⟨hsp, rfl⟩
  refine ⟨_, exec_done hdone, zext9_toNat _, ?_, setSp_regsKeptBut (s.loadPc _) _, fun _ _ => rfl, rfl, ⟨rfl, rfl⟩, rfl⟩
  simpa using toNat_add_one hsp

/-! CALL, then RET -/

/-- Settles O35: CALL leaves `pc + 2` at the new stack pointer, which is below 255, so a RET that finds both there loads that
address and puts the stack pointer back. -/
theorem callThenRetComesBack : Obligations.CallThenRetComesBack := by
  intro r s t u hpc hsp hcall husp hutop
  have hsp0 : s.sp ≠ 0 := by
    intro h
    simp [h] at hsp
  obtain ⟨t', ht', hspt, htop, -⟩ := callPushesTheReturnAddressAndJumps.1 r s hsp0 hpc
  obtain rfl : t = t' := by simpa using hcall.symm.trans ht'
  have husp' : u.sp.toNat = s.sp.toNat - 1 := by rw [husp, hspt]
  have husp255 : u.sp ≠ 255 := by
    intro h
    have hlt := s.sp.isLt
    have h255 : u.sp.toNat = 255 := by rw [h]; rfl
    omega
  obtain ⟨v, hv, hpcv, hspv, -⟩ := retPopsTheProgramCounter.1 u husp255
  have hret : (s.pc + 2).toNat = s.pc.toNat + 2 := pc_add_toNat (k := 2) (by omega) (by omega)
  refine ⟨v, hv, BitVec.eq_of_toNat_eq ?_, BitVec.eq_of_toNat_eq (by omega)⟩
  calc v.pc.toNat = (u.memByte u.sp.toNat).toNat := hpcv
    _ = (t.memByte (s.sp.toNat - 1)).toNat := by rw [hutop, hspt]
    _ = (s.pc + 2).toNat := by rw [htop, hret]

end Sys2Proof.Machine

/-! Family 46_system_io: the statements of HLT and PRN. -/

namespace Sys2Proof.Machine

/-- Settles O37: HLT completes with STATUS set, which leaves an ended core, and such a core changes only by Reset; its form
is that of its format. -/
theorem hltHaltsAndKeepsEverythingElse : Obligations.HltHaltsAndKeepsEverythingElse := by
  have hexec (s : State) : exec .hlt s = .next (s.setStatus .halted) := exec_done (i := .hlt) rfl
  refine ⟨hexec, fun map s => ⟨_, hexec s, ?_⟩, fun _ hmap => oneByteForm_of_nopsOf hmap rfl fun _ _ => rfl⟩
  obtain ⟨hstep, hhost, -⟩ := endedCoreChangesOnlyByReset map (s.setStatus .halted) (.inl rfl)
  refine ⟨fun u hu => ?_, hhost⟩
  simpa using hu.symm.trans hstep

/-- Settles O38: PRN completes with the register's byte appended to OUT; its operand check and its form are those of its
format. -/
theorem prnEmitsTheRegister : Obligations.PrnEmitsTheRegister := by
  refine ⟨fun r s => ?_, checksRegister_of_regOperands fun _ => rfl,
    fun _ hmap => twoByteForm_of_nopsOf hmap rfl fun _ _ => rfl⟩
  have hdone : ExecDone (.prn (regByte r)) s ((s.emit (s.getReg r)).advancePc 2) := ⟨r, rfl, rfl⟩
  exact ⟨_, exec_done hdone, rfl, rfl, fun _ _ => rfl, fun _ _ => rfl, rfl, ⟨rfl, rfl⟩⟩

end Sys2Proof.Machine

/-! Family 47_blocks_and_interfaces: what Load and Start do, and the launch state they leave after Reset. -/

namespace Sys2Proof.Machine

/-! Start -/

theorem hostStart_idle {s : State} (hs : s.status = .idle) : hostStart s = s.setStatus .running := if_pos hs

/-- Settles O48: in Idle Start sets STATUS, and outside Idle no dealing of the host but Reset acts. -/
theorem startActsOnlyInIdle : Obligations.StartActsOnlyInIdle :=
  fun _ => ⟨hostStart_idle, fun hs => applyHostOp_notIdle (op := .start) hs (by decide)⟩

/-! Load -/

/-- An image that fits is written from address 0 (R161). -/
theorem hostLoad_fits {image : List Byte} {s : State} (hs : s.status = .idle) (hlen : image.length ≤ 256) :
    hostLoad image s = { s with mem := s.mem.writeBytes 0 image } :=
  (if_pos hs).trans (if_neg (Nat.not_lt.mpr hlen))

/-- An image that does not fit faults the core and writes nothing (R161). -/
theorem hostLoad_tooLong {image : List Byte} {s : State} (hs : s.status = .idle) (hlen : 256 < image.length) :
    hostLoad image s = s.raised (.addressOutOfRange .mem 256) :=
  (if_pos hs).trans (if_pos hlen)

theorem Memory.get_writeBytes_zero (m : Memory) {image : List Byte} (hlen : image.length ≤ 256) (a : Nat) :
    (m.writeBytes 0 image).get a = image.getD a (m.get a) := by
  rw [Memory.get_writeBytes m 0 image (by rwa [Nat.zero_add]), if_pos a.zero_le, Nat.sub_zero]

/-- Inside the image memory holds its byte, and past it the byte that was there. -/
theorem Memory.image_writeBytes_zero (m : Memory) {image : List Byte} (hlen : image.length ≤ 256) :
    (∀ a (h : a < image.length), (m.writeBytes 0 image).get a = image[a]) ∧
    (∀ a, image.length ≤ a → (m.writeBytes 0 image).get a = m.get a) := by
  refine ⟨fun a h => ?_, fun a h => ?_⟩
  · rw [Memory.get_writeBytes_zero m hlen, List.getD_eq_getElem image _ h]
  · rw [Memory.get_writeBytes_zero m hlen, List.getD_eq_default image _ h]

/-- Settles O46: an image that fits is written as `image_writeBytes_zero` says, a longer one is the fault, and outside
Idle no dealing of the host but Reset acts. -/
theorem loadDepositsTheImage : Obligations.LoadDepositsTheImage := by
  refine fun image s => ⟨fun hs hlen => ?_, hostLoad_tooLong,
    fun hs => applyHostOp_notIdle (op := .load image) hs (by simp)⟩
  rw [hostLoad_fits hs hlen]
  obtain ⟨hin, hpast⟩ := s.mem.image_writeBytes_zero hlen
  exact ⟨hin, hpast, rfl⟩

/-! The launch state -/

/-- The launch state is the reset state with the image in memory and STATUS Running (R164). -/
theorem boot_fits {image : List Byte} (hlen : image.length ≤ 256) :
    boot image = { State.reset with mem := Memory.writeBytes [] 0 image, status := .running } := by
  rw [boot, hostLoad_fits rfl hlen, hostStart_idle rfl]
  rfl

/-- Settles O47: memory is zero before the image is written, and every other item but STATUS has its reset value. -/
theorem bootLeavesTheLaunchState : Obligations.BootLeavesTheLaunchState := by
  intro image hlen
  rw [boot_fits hlen]
  obtain ⟨hin, hpast⟩ := Memory.image_writeBytes_zero [] hlen
  obtain ⟨-, hsp, hregs, hpc, hfl, -, herr, hout, -⟩ := resetLeavesTheResetValues State.reset
  exact ⟨hin, hpast, hsp, hregs, hpc, hfl, rfl, herr, hout⟩

end Sys2Proof.Machine
